-- ==== Sys2Proof/Word.lean ====
section
/-! DEFINITION. The widths of this hardware (00_scope.md R10, R12 to R15): bytes, 64-bit limbs, 128-bit field elements. -/

namespace Sys2Proof

/-- One byte of the host data memory (R40). -/
abbrev Byte := BitVec 8

/-- A limb, a window register, and a host data memory address: 64 bits (R10 LIMB_BITS, REG_BITS, ADDR_BITS). -/
abbrev Limb := BitVec 64

/-- A field element of GF(2^128): bit k is the coefficient of x^k (R15). A 128-bit carry-less product has the same width. -/
abbrev FieldElement := BitVec 128

end Sys2Proof
end

