-- ==== Sys2Proof/Syntax.lean ====
section
/-! DEFINITION. The commands (30_encoding.md R59) and the fields of a value written to CMD (R56, R58). -/

namespace Sys2Proof

/-- The ten commands, one constructor per row of spec/opcode_table.json. No command has an operand field: every operand
is implicit (R58). -/
inductive Instr where
  | setkey
  | clear
  | update
  | sum
  | save
  | load
  | clmul00
  | clmul11
  | fmul
  | double
  deriving DecidableEq, Repr

/-- The fields of a 64-bit value written to CMD: the one command format of R58 and the upper half of R56. -/
structure CmdFields where
  /-- v[63:32], which must be 0 (R56). -/
  upper : BitVec 32
  /-- RSV, bits [31:16], which must be 0 (R58). -/
  rsv : BitVec 16
  /-- IMM8, bits [15:8]: the lane selector of CLMUL, 0 elsewhere (R58). -/
  imm8 : BitVec 8
  /-- OPC, bits [7:0] (R59). -/
  opc : BitVec 8
  deriving DecidableEq, Repr

/-- Why a value is illegal (R61). The machine treats all of them alike (R123): the name is for the reader (log 19). -/
inductive Illegal where
  /-- v[63:32] ≠ 0. -/
  | upperHalf
  /-- RSV ≠ 0. -/
  | reservedBits
  /-- OPC is 0x00, in 0x07..0x0F or in 0x13..0xFF. -/
  | opcode
  /-- OPC is 0x10 and IMM8 is neither 0x00 nor 0x11 (the cross-limb selectors among them). -/
  | laneSelector
  /-- Another opcode with IMM8 ≠ 0. -/
  | immediate
  deriving DecidableEq, Repr

end Sys2Proof
end

