-- ==== Sys2Proof/WellFormed.lean ====
section
/-! DEFINITION. Which field values make a legal command (30_encoding.md R56, R58, R61), each check under its own name. -/

namespace Sys2Proof

/-- v[63:32] = 0 (R56). -/
def CmdFields.upperZero (c : CmdFields) : Bool := c.upper == 0

/-- RSV = 0 (R58). -/
def CmdFields.rsvZero (c : CmdFields) : Bool := c.rsv == 0

/-- OPC is in the opcode map (R59): 0x01..0x06 or 0x10..0x12. -/
def CmdFields.opcAssigned (c : CmdFields) : Bool :=
  (1 ≤ c.opc.toNat && c.opc.toNat ≤ 6) || (0x10 ≤ c.opc.toNat && c.opc.toNat ≤ 0x12)

/-- IMM8 is 0x00 or 0x11 with OPC 0x10, and 0x00 with every other opcode (R58, R61). -/
def CmdFields.immLegal (c : CmdFields) : Bool :=
  if c.opc == 0x10 then c.imm8 == 0x00 || c.imm8 == 0x11 else c.imm8 == 0x00

/-- The fields of a legal command. -/
def CmdFields.wf (c : CmdFields) : Bool :=
  c.upperZero && c.rsvZero && c.opcAssigned && c.immLegal

/-- A command as syntax has no operand that could be out of range (R58), so every one is well formed; what can be ill
formed is the written value, which `CmdFields.wf` judges. -/
def Instr.wf (_ : Instr) : Bool := true

end Sys2Proof
end

