-- ==== Sys2Proof/Decode.lean ====
section
/-! DEFINITION. Decoding of a value written to CMD (30_encoding.md R56, R60, R61), total, and the encoder (R58, R59). -/

namespace Sys2Proof

/-- The fields of a value v written to CMD (R56, R58). -/
def splitFields (v : Limb) : CmdFields where
  upper := v.extractLsb' 32 32
  rsv := v.extractLsb' 16 16
  imm8 := v.extractLsb' 8 8
  opc := v.extractLsb' 0 8

/-- CMD[7:0], the byte STATUS.LASTOP records (10_state.md R26). -/
def opcodeByte (v : Limb) : Byte := v.extractLsb' 0 8

/-- Why a word outside the opcode map is illegal: the first of R61's classes that holds, RSV, OPC, then IMM8 (log 19). -/
def illegalReason (c : CmdFields) : Illegal :=
  if !c.rsvZero then .reservedBits
  else if !c.opcAssigned then .opcode
  else if c.opc == 0x10 then .laneSelector
  else .immediate

/-- R60's case distinction on the command word c = v[31:0]; `none` is "otherwise". -/
def decodeWord (c : BitVec 32) : Option Instr :=
  if c = 0x00000001 then some .setkey
  else if c = 0x00000002 then some .clear
  else if c = 0x00000003 then some .update
  else if c = 0x00000004 then some .sum
  else if c = 0x00000005 then some .save
  else if c = 0x00000006 then some .load
  else if c = 0x00000010 then some .clmul00
  else if c = 0x00001110 then some .clmul11
  else if c = 0x00000011 then some .fmul
  else if c = 0x00000012 then some .double
  else none

/-- `decode` of R60, total over every 64-bit value v written to CMD. -/
def decode (v : Limb) : Except Illegal Instr :=
  if v.extractLsb' 32 32 ≠ (0 : BitVec 32) then .error .upperHalf
  else match decodeWord (v.extractLsb' 0 32) with
    | some i => .ok i
    | none => .error (illegalReason (splitFields v))

/-- The instruction the decoder reads from a word of spec/opcode_table.json: the command word is the low half of the
value written to CMD and the bits above `nbits` are 0 (log 18). -/
def decodeTableWord (nbits w : Nat) : Option Instr :=
  match decode (BitVec.ofNat 64 (w % 2 ^ nbits)) with
  | .ok i => some i
  | .error _ => none

/-- The OPC column of R59. -/
def opcodeOf : Instr → BitVec 8
  | .setkey => 0x01
  | .clear => 0x02
  | .update => 0x03
  | .sum => 0x04
  | .save => 0x05
  | .load => 0x06
  | .clmul00 => 0x10
  | .clmul11 => 0x10
  | .fmul => 0x11
  | .double => 0x12

/-- The IMM8 column of R59. -/
def immediateOf : Instr → BitVec 8
  | .clmul11 => 0x11
  | .setkey | .clear | .update | .sum | .save | .load | .clmul00 | .fmul | .double => 0x00

/-- The command word of an instruction: RSV (0), IMM8, OPC, from bit 31 down (R58). -/
def encode (i : Instr) : BitVec 32 := (0 : BitVec 16) ++ immediateOf i ++ opcodeOf i

/-- The 64-bit value the host writes to CMD to issue an instruction: the word with v[63:32] = 0 (R56). -/
def cmdValue (i : Instr) : Limb := (0 : BitVec 32) ++ encode i

end Sys2Proof
end

