-- ==== Sys2Proof/Config.lean ====
section
/-! DEFINITION. What an implementation or its platform fixes (00_scope.md R11), and the free values. None of these
constants has a body: nothing can be proved of their values. -/

namespace Sys2Proof

/-- The CAP_CLMUL input at the power-on reset that precedes the run (R11, 10_state.md R27; log 7). -/
opaque Config.capClmul : Bool

/-- The CAP_XOR3 input at the power-on reset that precedes the run (R11, 10_state.md R27; log 7). -/
opaque Config.capXor3 : Bool

/-- The ranges (address, length) for which the platform's MemAdmits answers false, when the run starts (R11,
20_memory.md R45; log 3). -/
opaque Config.refusedRanges : List (Limb × Nat)

/-- LAT, the latency of a command as a function of its opcode and LEN only (R11, 70_reset_and_hazards.md R148). Nothing
in the model depends on it (log 12). -/
opaque Config.lat : BitVec 8 → Limb → Nat

/-- Free value: the byte the core's read sees at a raced address (20_memory.md R49: "any byte value"), by draw number
and address (log 9). -/
opaque Config.racedRead : Nat → Limb → Byte

/-- Free value: what a byte holds in the end when SAVE and another agent both wrote it during the command, which no rule
states, by draw number and address (log 9). -/
opaque Config.racedWrite : Nat → Limb → Byte

end Sys2Proof
end

