-- ==== Sys2Proof/Machine/Types.lean ====
section
/-! DEFINITION. The data types of the state's parts: the power table, the backend latch, the STATUS.ERR codes, what the
host and the platform can do; and the backend selection of power-on reset. -/

namespace Sys2Proof.Machine

/-- The power table POW[0..7] (10_state.md R29): `p0` is POW[0] = H^8 and `p7` is POW[7] = H^1. -/
structure KeyPowers where
  p0 : FieldElement
  p1 : FieldElement
  p2 : FieldElement
  p3 : FieldElement
  p4 : FieldElement
  p5 : FieldElement
  p6 : FieldElement
  p7 : FieldElement
  deriving DecidableEq, Repr

/-- POW[0], POW[1], …, POW[7] in index order. -/
def KeyPowers.toList (p : KeyPowers) : List FieldElement :=
  [p.p0, p.p1, p.p2, p.p3, p.p4, p.p5, p.p6, p.p7]

/-- POW[i]. -/
def KeyPowers.get (p : KeyPowers) : Fin 8 → FieldElement
  | 0 => p.p0
  | 1 => p.p1
  | 2 => p.p2
  | 3 => p.p3
  | 4 => p.p4
  | 5 => p.p5
  | 6 => p.p6
  | 7 => p.p7

/-- The table whose entry i is f i. -/
def keyPowersOf (f : Fin 8 → FieldElement) : KeyPowers :=
  ⟨f 0, f 1, f 2, f 3, f 4, f 5, f 6, f 7⟩

/-- The three backends (00_scope.md R3; 10_state.md R34). -/
inductive Backend where
  | portable
  | hwClmul
  | hwClmul3Xor
  deriving DecidableEq, Repr

/-- The STATUS.BACKEND code (10_state.md R24). -/
def backendCode : Backend → BitVec 2
  | .portable => 0
  | .hwClmul => 1
  | .hwClmul3Xor => 2

/-- Backend selection at power-on reset from the sampled inputs (70_reset_and_hazards.md R140). -/
def selectBackend (clmul xor3 : Bool) : Backend :=
  if clmul && xor3 then .hwClmul3Xor
  else if clmul then .hwClmul
  else .portable

/-- How the last command ended: the STATUS.ERR codes ever produced (10_state.md R25; 93_implementation_defined.md I14). -/
inductive ErrCode where
  | ok
  | invalidKeyLength
  | invalidKey
  | invalidLength
  | noKey
  | illegalCommand
  deriving DecidableEq, Repr

/-- What happens next outside the core (log 1). -/
inductive HostOp where
  /-- The host writes `value` to window register `index` (10_state.md R22); index 0x00 issues a command (30_encoding.md R56). -/
  | writeReg (index : BitVec 8) (value : Limb)
  /-- The host reads window register `index` (R22). -/
  | readReg (index : BitVec 8)
  /-- The host (or another agent, between commands) writes a byte of the host data memory (R19; 20_memory.md R53). -/
  | writeMem (addr : Limb) (byte : Byte)
  /-- The host reads a byte of the host data memory (R53). -/
  | readMem (addr : Limb)
  /-- Power-on reset with the values of the CAP_CLMUL and CAP_XOR3 inputs (70_reset_and_hazards.md R139). -/
  | powerOn (clmul xor3 : Bool)
  /-- Another agent writes `byte` at `addr` while the next command runs (20_memory.md R49; log 9). -/
  | race (addr : Limb) (byte : Byte)
  deriving DecidableEq, Repr

end Sys2Proof.Machine
end

