-- ==== Sys2Proof/Machine/Memory.lean ====
section
/-! DEFINITION. The host data memory (20_memory.md R40): one byte map, kept as a canonical list. -/

namespace Sys2Proof.Machine

/-- The host data memory's byte map M: the listed (address, byte) pairs, and `unlistedByte` everywhere else. -/
abbrev Memory := List Host.Cell

/-- What a byte that nothing has written reads as. DESIGN CHOICE, unsafe (log 5): the spec gives no contents. -/
def unlistedByte : Byte := 0

/-- The byte at an address. -/
def readByte : Memory → Nat → Byte
  | [], _ => unlistedByte
  | (k, b) :: m, a => if k = a then b else readByte m a

/-- The memory with one byte replaced; keeps the canonical form (writing `unlistedByte` removes the entry). -/
def writeByte : Memory → Nat → Byte → Memory
  | [], a, v => if v = unlistedByte then [] else [(a, v)]
  | (k, b) :: m, a, v =>
    if a < k then (if v = unlistedByte then (k, b) :: m else (a, v) :: (k, b) :: m)
    else if a = k then (if v = unlistedByte then m else (a, v) :: m)
    else (k, b) :: writeByte m a v

/-- Every entry lies above `lo`, addresses rise strictly, no entry equals what an unlisted address reads as, and every
address is one of the 2^64 (R40). -/
def wfAbove : Nat → Memory → Bool
  | _, [] => true
  | lo, (k, b) :: m => decide (lo ≤ k) && decide (k < 2 ^ 64) && (b != unlistedByte) && wfAbove (k + 1) m

/-- The canonical form of the memory. -/
def memoryWf (m : Memory) : Bool := wfAbove 0 m

/-- Address of byte i of a range that starts at `a`: (a + i) mod 2^64 (R41, R151). -/
def byteAddr (a : Limb) (i : Nat) : Limb := a + BitVec.ofNat 64 i

/-- The addresses of the range [a, a+n), in order (R41). -/
def rangeAddrs (a : Limb) (n : Nat) : List Limb := (List.range n).map (byteAddr a)

/-- Whether an address lies in the range [a, a+n), which may wrap past 2^64 − 1 (R41). -/
def inRange (a : Limb) (n : Nat) (x : Limb) : Bool := decide ((x - a).toNat < n)

/-- Σ b[i]·2^(8i): the value of bytes in address order (00_scope.md R15; 20_memory.md R42, R44). -/
def leValue : List Byte → Nat
  | [] => 0
  | b :: bs => b.toNat + 256 * leValue bs

/-- The n bytes v[7:0], v[15:8], … that MemWrite stores (R44). -/
def leBytes (n : Nat) (v : Nat) : List Byte :=
  (List.range n).map fun i => BitVec.ofNat 8 (v >>> (8 * i))

/-- The memory with bytes stored from `a` on, each at the next address modulo 2^64 (R41, R44). -/
def writeBytes : Memory → Limb → List Byte → Memory
  | m, _, [] => m
  | m, a, b :: bs => writeBytes (writeByte m a.toNat b) (a + 1) bs

end Sys2Proof.Machine
end

