-- ==== Sys2Proof/Machine/Assembler.lean ====
section
/-! DEFINITION. Host programs (30_encoding.md R62, R63): what each line and each pseudo-instruction stands for, as the host
register accesses it expands to. AsmText.lean reads lines from text. -/

namespace Sys2Proof.Machine

/-- The names of the defined window registers (10_state.md R21). -/
inductive RegName where
  | cmd | status | addr | len | opaLo | opaHi | opbLo | opbHi | resLo | resHi | cap
  deriving DecidableEq, Repr

/-- A register's window index (R21). -/
def regIndex : RegName → BitVec 8
  | .cmd => 0x00
  | .status => 0x01
  | .addr => 0x02
  | .len => 0x03
  | .opaLo => 0x04
  | .opaHi => 0x05
  | .opbLo => 0x06
  | .opbHi => 0x07
  | .resLo => 0x08
  | .resHi => 0x09
  | .cap => 0x0A

/-- One operation of a host program (R62) or one pseudo-instruction (R63). -/
inductive AsmLine where
  /-- `wr NAME, imm` -/
  | wr (name : RegName) (imm : Limb)
  /-- `rd NAME` -/
  | rd (name : RegName)
  /-- A command mnemonic alone. -/
  | command (i : Instr)
  /-- `wr128 OPA, v` -/
  | wr128Opa (v : FieldElement)
  /-- `wr128 OPB, v` -/
  | wr128Opb (v : FieldElement)
  /-- `rd128 RES` -/
  | rd128Res
  /-- `SETKEY a` -/
  | setkeyAt (a : Limb)
  /-- `UPDATE a, n` -/
  | updateAt (a n : Limb)
  /-- `SAVE a` -/
  | saveAt (a : Limb)
  /-- `LOAD a` -/
  | loadAt (a : Limb)
  /-- `ONESHOT k, d, n` -/
  | oneShot (k d n : Limb)
  deriving DecidableEq, Repr

/-- `wr NAME, imm` as a host register access. -/
def wrOp (name : RegName) (imm : Limb) : HostOp := .writeReg (regIndex name) imm

/-- `wr ADDR, a` ; `wr LEN, n` ; the command (R63). -/
def rangeCommand (i : Instr) (a n : Limb) : List HostOp := [wrOp .addr a, wrOp .len n, wrOp .cmd (cmdValue i)]

/-- What a line stands for (R62, R63), in order. -/
def assemble1 : AsmLine → List HostOp
  | .wr name imm => [wrOp name imm]
  | .rd name => [.readReg (regIndex name)]
  | .command i => [wrOp .cmd (cmdValue i)]
  | .wr128Opa v => [wrOp .opaLo (v.extractLsb' 0 64), wrOp .opaHi (v.extractLsb' 64 64)]
  | .wr128Opb v => [wrOp .opbLo (v.extractLsb' 0 64), wrOp .opbHi (v.extractLsb' 64 64)]
  | .rd128Res => [.readReg (regIndex .resLo), .readReg (regIndex .resHi)]
  | .setkeyAt a => rangeCommand .setkey a 16
  | .updateAt a n => rangeCommand .update a n
  | .saveAt a => rangeCommand .save a 160
  | .loadAt a => rangeCommand .load a 160
  | .oneShot k d n => rangeCommand .setkey k 16 ++ rangeCommand .update d n ++ [wrOp .cmd (cmdValue .sum)]

/-- A host program as the inputs it puts before the core (R62). -/
def assembleProgram (p : List AsmLine) : List HostOp := p.flatMap assemble1

/-- The 128-bit immediate `le:` followed by 16 bytes in memory order (R62). -/
def leImmediate (bytes : List Byte) : FieldElement := BitVec.ofNat 128 (leValue bytes)

end Sys2Proof.Machine
end

