-- ==== Sys2Proof/Machine/Bits.lean ====
section
/-! DEFINITION. Limbs of a field element (00_scope.md R14, R15). -/

namespace Sys2Proof.Machine

/-- e.lo = e[63:0], the coefficients of x^0..x^63 (R14, R15). -/
def lo (e : FieldElement) : Limb := e.extractLsb' 0 64

/-- e.hi = e[127:64], the coefficients of x^64..x^127 (R14, R15). -/
def hi (e : FieldElement) : Limb := e.extractLsb' 64 64

/-- {h, l}: the 128-bit value with `h` in the more significant limb (R12, R14). -/
def limbs (h l : Limb) : FieldElement := h ++ l

end Sys2Proof.Machine
end

