-- ==== Sys2Proof/Machine/Double.lean ====
section
/-! DEFINITION. Doubling, mulX (42_double_powers.md R87). -/

namespace Sys2Proof.Machine

/-- `double(a)` (R87), limb by limb. -/
def double (a : FieldElement) : FieldElement :=
  let h := hi a >>> 63
  let hi' := (hi a <<< 1) ||| (lo a >>> 63)
  let lo' := lo a <<< 1
  limbs (hi' ^^^ (h <<< 63) ^^^ (h <<< 62) ^^^ (h <<< 57)) (lo' ^^^ h)

end Sys2Proof.Machine
end

