-- ==== Sys2Proof/Machine/Clmul.lean ====
section
/-! DEFINITION. The carry-less 64×64 multiplier (40_clmul.md R64, R65). -/

namespace Sys2Proof.Machine

/-- The running value of R64's loop after the iterations 0, …, n − 1. -/
def clmulUpTo (x y : Limb) : Nat → FieldElement
  | 0 => 0
  | n + 1 => clmulUpTo x y n ^^^ (if y.getLsbD n then x.zeroExtend 128 <<< n else 0)

/-- `clmul64(x, y)` (R64): the 128-bit carry-less product. -/
def clmul64 (x y : Limb) : FieldElement := clmulUpTo x y 64

/-- `ctmul(x, y) -> (hi, lo)` (R65). -/
def ctmul (x y : Limb) : Limb × Limb := (hi (clmul64 x y), lo (clmul64 x y))

end Sys2Proof.Machine
end

