-- ==== Sys2Proof/Machine/Fmul.lean ====
section
/-! DEFINITION. The field multiplier: Karatsuba composition (41_fmul.md R75), Gueron's Montgomery reduction (R77), and
their composition (R81), the Montgomery product a·b·x^−128 mod P (90_conflicts.md C1). -/

namespace Sys2Proof.Machine

/-- A 256-bit value (X3, X2, X1, X0), X0 the least significant limb (00_scope.md R14). -/
structure Wide where
  x3 : Limb
  x2 : Limb
  x1 : Limb
  x0 : Limb
  deriving DecidableEq, Repr

/-- RED_CONST, x^63 + x^62 + x^57 (00_scope.md R10; 41_fmul.md R77, R78). -/
def redConst : Limb := 0xC200000000000000

/-- Three Karatsuba products, or three sums of them (41_fmul.md R75; 43_update.md R100): high, low and middle. -/
structure Triple where
  h : FieldElement
  l : FieldElement
  m : FieldElement
  deriving DecidableEq, Repr

/-- The limbs X of the 256-bit product from the three products, as R75 writes them (and R101 reuses them). -/
def assemble (t : Triple) : Wide where
  x3 := hi t.h
  x2 := lo t.h ^^^ hi t.m ^^^ hi t.h ^^^ hi t.l
  x1 := hi t.l ^^^ lo t.m ^^^ lo t.h ^^^ lo t.l
  x0 := lo t.l

/-- The three Karatsuba products of a and b, with a given carry-less multiplier (R75). -/
def karaTriple (mul : Limb → Limb → FieldElement) (a b : FieldElement) : Triple where
  h := mul (hi a) (hi b)
  l := mul (lo a) (lo b)
  m := mul (hi a ^^^ lo a) (hi b ^^^ lo b)

/-- `kara(a, b)` (R75). -/
def kara (a b : FieldElement) : Wide := assemble (karaTriple clmul64 a b)

/-- The second half of `mred`, from B0 and B1 on (R77). -/
def mredFold (b0 b1 x2 x3 : Limb) : FieldElement :=
  let c := clmul64 b0 redConst
  limbs (b0 ^^^ hi c ^^^ x3) (b1 ^^^ lo c ^^^ x2)

/-- `mred(X)` (R77): B = (X0 ^ A1, X1 ^ A0) with A = ctmul(X0, RED_CONST), then the same fold with B0. -/
def mred (x : Wide) : FieldElement :=
  let a := clmul64 x.x0 redConst
  mredFold (x.x1 ^^^ lo a) (x.x0 ^^^ hi a) x.x2 x.x3

/-- `fmul(a, b) = mred(kara(a, b))` (R81). -/
def fmul (a b : FieldElement) : FieldElement := mred (kara a b)

end Sys2Proof.Machine
end

