-- ==== Sys2Proof/Machine/State.lean ====
section
/-! DEFINITION. The machine's state (10_state.md), its reset value (70_reset_and_hazards.md R139), and the reasons a step can stop. -/

namespace Sys2Proof.Machine

/-- Everything the spec gives the machine, and the model's own fields for what lies outside the core. -/
structure State where
  /-- ADDR, window index 0x02 (R21). -/
  addr : Limb
  /-- LEN, 0x03 (R21). -/
  len : Limb
  /-- OPA_LO, 0x04 (R21). -/
  opaLo : Limb
  /-- OPA_HI, 0x05 (R21). -/
  opaHi : Limb
  /-- OPB_LO, 0x06 (R21). -/
  opbLo : Limb
  /-- OPB_HI, 0x07 (R21). -/
  opbHi : Limb
  /-- RES_LO, 0x08 (R21). -/
  resLo : Limb
  /-- RES_HI, 0x09 (R21). -/
  resHi : Limb
  /-- STATUS.EF, the sticky error flag (R24). -/
  ef : Bool
  /-- STATUS.ERR, how the last command ended (R24, R25). -/
  err : ErrCode
  /-- STATUS.LASTOP, CMD[7:0] of the last command (R24). -/
  lastOp : Byte
  /-- CAP.CLMUL, the CAP_CLMUL input sampled at power-on reset (R27). -/
  capClmul : Bool
  /-- CAP.XOR3, the CAP_XOR3 input sampled at power-on reset (R27). -/
  capXor3 : Bool
  /-- The backend latch BE, which STATUS.BACKEND reads (R34). -/
  be : Backend
  /-- KV, 1 when H, POW and S hold a Context; STATUS.KV is its copy (R31, R24; log 8). -/
  kv : Bool
  /-- H, the hash key (R28). -/
  hKey : FieldElement
  /-- POW[0..7], the power table (R29). -/
  pow : KeyPowers
  /-- S, the HashState (R30). -/
  hashState : FieldElement
  /-- The host data memory (20_memory.md R40). -/
  mem : Memory
  /-- The (address, length) pairs for which the platform's MemAdmits answers false (R45; log 3). -/
  refused : List (Limb × Nat)
  /-- Model's own: what the host and the platform do next, oldest first (log 1). -/
  inputs : List HostOp
  /-- Model's own: the value the host's last window read returned (log 10). -/
  hostWord : Limb
  /-- Model's own: the byte the host's last memory read returned (log 10). -/
  hostByte : Byte
  /-- Model's own: the bytes another agent writes while the next command runs, newest first (R49; log 9). -/
  racing : List (Limb × Byte)
  /-- Model's own: numbers the draws of free bytes (log 9). -/
  draw : Nat
  deriving DecidableEq, Repr

/-- Why the machine stops. -/
inductive Fault where
  /-- Raised by SETKEY, UPDATE, SAVE and LOAD when the platform does not admit the range: "the command has no step: the
  core is stuck in that command" (20_memory.md R45; log 4). Safe: no claim about a run through it can be proved. -/
  | rangeNotAdmitted (addr : Limb) (n : Nat)
  deriving DecidableEq, Repr

/-- Why a command has no meaning in this model. -/
inductive Refusal where
  /-- Raised by an arm of `exec` whose command has no meaning yet. Safe. No arm raises it. -/
  | notModelled (mnemonic : String)
  deriving DecidableEq, Repr

/-- The core right after a power-on reset that sampled the given capability inputs (70_reset_and_hazards.md R139, R140),
with nothing written to memory and no input pending. -/
def State.resetWith (clmul xor3 : Bool) : State where
  addr := 0
  len := 0
  opaLo := 0
  opaHi := 0
  opbLo := 0
  opbHi := 0
  resLo := 0
  resHi := 0
  ef := false
  err := .ok
  lastOp := 0
  capClmul := clmul
  capXor3 := xor3
  be := selectBackend clmul xor3
  kv := false
  hKey := 0
  pow := ⟨0, 0, 0, 0, 0, 0, 0, 0⟩
  hashState := 0
  mem := []
  refused := Config.refusedRanges
  inputs := []
  hostWord := 0
  hostByte := 0
  racing := []
  draw := 0

/-- The machine right after power-on reset (R139); the capability inputs are the open parameters of 00_scope.md R11. -/
def State.reset : State := State.resetWith Config.capClmul Config.capXor3

end Sys2Proof.Machine
end

