-- ==== Sys2Proof/Machine/Flags.lean ====
section
/-! DEFINITION. STATUS and CAP as words (10_state.md R24, R25, R27), and how the end of a command writes STATUS (R26).
There are no other flags (R39). -/

namespace Sys2Proof.Machine

/-- The STATUS.ERR code (R25). -/
def errCode : ErrCode → BitVec 4
  | .ok => 0
  | .invalidKeyLength => 1
  | .invalidKey => 2
  | .invalidLength => 3
  | .noKey => 4
  | .illegalCommand => 5

/-- STATUS (R24), from bit 63 down: reserved [63:24], LASTOP [23:16], reserved [15:10], BACKEND [9:8], ERR [7:4],
reserved [3:2], EF [1], KV [0]. -/
def State.statusWord (s : State) : Limb :=
  (0 : BitVec 40) ++ s.lastOp ++ (0 : BitVec 6) ++ backendCode s.be ++ errCode s.err ++ (0 : BitVec 2)
    ++ BitVec.ofBool s.ef ++ BitVec.ofBool s.kv

/-- CAP (R27): XOR3 at bit 1, CLMUL at bit 0, every other bit 0. -/
def State.capWord (s : State) : Limb :=
  (0 : BitVec 62) ++ BitVec.ofBool s.capXor3 ++ BitVec.ofBool s.capClmul

/-- STATUS.EF after a command that ended with `code` (R26): sticky. -/
def efAfter (ef : Bool) (code : ErrCode) : Bool := ef || code != .ok

/-- The end of every command (R26): LASTOP, ERR and EF; KV's copy follows KV, BACKEND is unchanged. -/
def State.endCommand (code : ErrCode) (op : Byte) (s : State) : State :=
  { s with err := code, ef := efAfter s.ef code, lastOp := op }

end Sys2Proof.Machine
end

