-- ==== Sys2Proof/Machine/Operands.lean ====
section
/-! DEFINITION. Where a command's operands come from: the register window (10_state.md R21 to R23), and the memory range
each command accesses (20_memory.md R46, R151). -/

namespace Sys2Proof.Machine

/-- OPA = {x[OPA_HI], x[OPA_LO]} (R23). -/
def State.opA (s : State) : FieldElement := limbs s.opaHi s.opaLo

/-- OPB = {x[OPB_HI], x[OPB_LO]} (R23). -/
def State.opB (s : State) : FieldElement := limbs s.opbHi s.opbLo

/-- RES = {x[RES_HI], x[RES_LO]} (R23). -/
def State.res (s : State) : FieldElement := limbs s.resHi s.resLo

/-- A host read of the window (R21, R22): 0 for CMD and for a reserved index. -/
def State.readWindow (s : State) (index : BitVec 8) : Limb :=
  match index.toNat with
  | 0x01 => s.statusWord
  | 0x02 => s.addr
  | 0x03 => s.len
  | 0x04 => s.opaLo
  | 0x05 => s.opaHi
  | 0x06 => s.opbLo
  | 0x07 => s.opbHi
  | 0x08 => s.resLo
  | 0x09 => s.resHi
  | 0x0A => s.capWord
  | _ => 0

/-- A host write to the window other than to CMD (R22): a read/write register takes all 64 bits; a read-only register or a
reserved index takes nothing. -/
def State.writeWindow (index : BitVec 8) (value : Limb) (s : State) : State :=
  match index.toNat with
  | 0x02 => { s with addr := value }
  | 0x03 => { s with len := value }
  | 0x04 => { s with opaLo := value }
  | 0x05 => { s with opaHi := value }
  | 0x06 => { s with opbLo := value }
  | 0x07 => { s with opbHi := value }
  | _ => s

/-- Whether a command reads or writes its range. -/
inductive AccessKind where
  | read
  | write
  deriving DecidableEq, Repr

/-- The one memory range a command accesses: bytes start, start + 1, …, start + count − 1 modulo 2^64. -/
structure Access where
  kind : AccessKind
  start : Limb
  count : Nat
  deriving DecidableEq, Repr

/-- Which bytes each command accesses, exactly: the table of 20_memory.md R46. -/
def accessOf (i : Instr) (s : State) : Option Access :=
  match i with
  | .setkey => if s.len = 16 then some ⟨.read, s.addr, 16⟩ else none
  | .update => if s.kv ∧ s.len.toNat % 16 = 0 ∧ s.len ≠ 0 then some ⟨.read, s.addr, s.len.toNat⟩ else none
  | .save => if s.kv ∧ s.len = 160 then some ⟨.write, s.addr, 160⟩ else none
  | .load => if s.len = 160 then some ⟨.read, s.addr, 160⟩ else none
  | .clear | .sum | .clmul00 | .clmul11 | .fmul | .double => none

end Sys2Proof.Machine
end

