-- ==== Sys2Proof/Machine/Ops.lean ====
section
/-! DEFINITION. The named operations the commands share: admission and memory access (20_memory.md R44, R45, R49), the
writes of RES and of the Context, and the two ways a command ends (60_exceptions.md R118, R124; 10_state.md R26). -/

namespace Sys2Proof.Machine

/-- The platform's MemAdmits(addr, n) (R45; log 3). -/
def State.memAdmits (s : State) (addr : Limb) (n : Nat) : Bool := decide ((addr, n) ∉ s.refused)

/-- Ask the platform for the range [ADDR, ADDR+n) and go on; if it does not admit the range the command has no step
(R45; log 4). -/
def State.withRange (s : State) (n : Nat) (goOn : Host.Outcome State Fault Refusal) : Host.Outcome State Fault Refusal :=
  if s.memAdmits s.addr n then goOn else .fault (.rangeNotAdmitted s.addr n)

/-- Whether another agent writes the byte at `a` while the command runs (R49). -/
def State.raced (s : State) (a : Limb) : Bool := s.racing.any fun w => w.1 = a

/-- The byte the core's access at `a` sees: the memory's, or any byte if the byte is raced (R44, R49). -/
def State.coreByte (s : State) (a : Limb) : Byte :=
  if s.raced a then Config.racedRead s.draw a else readByte s.mem a.toNat

/-- MemRead(addr, n) (R44): the little-endian value of the n bytes from `addr` on. -/
def State.memRead (s : State) (a : Limb) (n : Nat) : Nat := leValue ((rangeAddrs a n).map s.coreByte)

/-- MemRead(addr, 16) as a field element (R42; 00_scope.md R15). -/
def State.readElem (s : State) (a : Limb) : FieldElement := BitVec.ofNat 128 (s.memRead a 16)

/-- blk[0], …, blk[k−1], with blk[j] = MemRead(addr + 16·j, 16) (43_update.md R97). -/
def State.readBlocks (s : State) (a : Limb) (k : Nat) : List FieldElement :=
  (List.range k).map fun j => s.readElem (byteAddr a (16 * j))

/-- MemWrite(addr, n, v) of n bytes (R44). -/
def State.memWrite (a : Limb) (bytes : List Byte) (s : State) : State := { s with mem := writeBytes s.mem a bytes }

/-- Write both limbs of RES in one step (10_state.md R23). -/
def State.setRes (r : FieldElement) (s : State) : State := { s with resHi := hi r, resLo := lo r }

/-- Write S (10_state.md R30). -/
def State.setHash (v : FieldElement) (s : State) : State := { s with hashState := v }

/-- Install a Context: H, POW, S, and KV ← 1 (10_state.md R28 to R31). -/
def State.setContext (h : FieldElement) (p : KeyPowers) (v : FieldElement) (s : State) : State :=
  { s with hKey := h, pow := p, hashState := v, kv := true }

/-- The command with opcode byte `op` completes (R118): STATUS.ERR ← 0. -/
def State.complete (op : Byte) (s : State) : Host.Outcome State Fault Refusal := .next (s.endCommand .ok op)

/-- The command with opcode byte `op` ends with an error: nothing but STATUS changes, nothing is saved and control goes
nowhere (60_exceptions.md R124, R125, R130). -/
def State.raiseError (code : ErrCode) (op : Byte) (s : State) : Host.Outcome State Fault Refusal :=
  .next (s.endCommand code op)

/-- The 160-byte state image (44_context.md R112): H, S, POW[0], …, POW[7], 16 little-endian bytes each. -/
def contextImage (s : State) : List Byte :=
  (s.hKey :: s.hashState :: s.pow.toList).flatMap fun e => leBytes 16 e.toNat

/-- Element i of a 160-byte image value: img[128·i+127 : 128·i] (44_context.md R114). -/
def imageElem (img : Nat) (i : Nat) : FieldElement := BitVec.ofNat 128 (img >>> (128 * i))

end Sys2Proof.Machine
end

