-- ==== Sys2Proof/Machine/Arith.lean ====
section
/-! DEFINITION. The arithmetic commands: CLMUL00, CLMUL11, FMUL, DOUBLE. They need no key, access no memory and never
fail (40_clmul.md R72; 41_fmul.md R86; 42_double_powers.md R91; 60_exceptions.md R126). -/

namespace Sys2Proof.Machine

/-- CLMUL00 (40_clmul.md R73). -/
def execClmul00 (s : State) : Host.Outcome State Fault Refusal :=
  (s.setRes (clmul64 s.opaLo s.opbLo)).complete 0x10

/-- CLMUL11 (40_clmul.md R74). -/
def execClmul11 (s : State) : Host.Outcome State Fault Refusal :=
  (s.setRes (clmul64 s.opaHi s.opbHi)).complete 0x10

/-- FMUL (41_fmul.md R86). -/
def execFmul (s : State) : Host.Outcome State Fault Refusal :=
  (s.setRes (fmul s.opA s.opB)).complete 0x11

/-- DOUBLE (42_double_powers.md R91). -/
def execDouble (s : State) : Host.Outcome State Fault Refusal :=
  (s.setRes (double s.opA)).complete 0x12

end Sys2Proof.Machine
end

