-- ==== Sys2Proof/Machine/Powers.lean ====
section
/-! DEFINITION. The power table builder (42_double_powers.md R92). -/

namespace Sys2Proof.Machine

/-- R92's loop with a given field multiplier: p[7] = H and p[i] = mul(p[i+1], H) for i from 6 down to 0. -/
def powersWith (mul : FieldElement → FieldElement → FieldElement) (h : FieldElement) : KeyPowers :=
  let p6 := mul h h
  let p5 := mul p6 h
  let p4 := mul p5 h
  let p3 := mul p4 h
  let p2 := mul p3 h
  let p1 := mul p2 h
  ⟨mul p1 h, p1, p2, p3, p4, p5, p6, h⟩

/-- `powers(H)` (R92). -/
def powers (h : FieldElement) : KeyPowers := powersWith fmul h

end Sys2Proof.Machine
end

