-- ==== Sys2Proof/Machine/Context.lean ====
section
/-! DEFINITION. The context commands: SETKEY, CLEAR, SUM, SAVE, LOAD (44_context.md R109 to R115). -/

namespace Sys2Proof.Machine

/-- SETKEY (R109): InvalidKeyLength, then the 16 key bytes, then InvalidKey, before the power table is computed. -/
def execSetkey (s : State) : Host.Outcome State Fault Refusal :=
  if s.len ≠ 16 then s.raiseError .invalidKeyLength 0x01
  else s.withRange 16
    (if s.readElem s.addr = 0 then s.raiseError .invalidKey 0x01
     else (s.setContext (s.readElem s.addr) (powers (s.readElem s.addr)) 0).complete 0x01)

/-- CLEAR (R110): S ← 0, with or without a key. -/
def execClear (s : State) : Host.Outcome State Fault Refusal :=
  (s.setHash 0).complete 0x02

/-- SUM (R111): NoKey, or RES ← S. -/
def execSum (s : State) : Host.Outcome State Fault Refusal :=
  if s.kv = false then s.raiseError .noKey 0x04
  else (s.setRes s.hashState).complete 0x04

/-- SAVE (R113): NoKey, then InvalidLength, then the image of R112 at ADDR. -/
def execSave (s : State) : Host.Outcome State Fault Refusal :=
  if s.kv = false then s.raiseError .noKey 0x05
  else if s.len ≠ 160 then s.raiseError .invalidLength 0x05
  else s.withRange 160 ((s.memWrite s.addr (contextImage s)).complete 0x05)

/-- H, POW and S from a 160-byte image, KV ← 1; nothing is checked (R114, R115). -/
def State.installImage (img : Nat) (s : State) : State :=
  s.setContext (imageElem img 0) (keyPowersOf fun i => imageElem img (i.val + 2)) (imageElem img 1)

/-- LOAD (R114): InvalidLength, or the Context from the 160 bytes at ADDR. -/
def execLoad (s : State) : Host.Outcome State Fault Refusal :=
  if s.len ≠ 160 then s.raiseError .invalidLength 0x06
  else s.withRange 160 ((s.installImage (s.memRead s.addr 160)).complete 0x06)

end Sys2Proof.Machine
end

