-- ==== Sys2Proof/Machine/Engine.lean ====
section
/-! DEFINITION. The block engine (43_update.md R98 to R102): the single tail over k mod 8 blocks, then the 8-block wide
stride with one reduction each. It computes with the stored table as it stands, never with Horner's rule (R104). -/

namespace Sys2Proof.Machine

/-- The single tail (R99): S ← mul(S ^ block, POW[7]) for each block in order. -/
def tailWith (mul : FieldElement → FieldElement → FieldElement) (p7 : FieldElement) : FieldElement → List FieldElement → FieldElement
  | s, [] => s
  | s, b :: bs => tailWith mul p7 (mul (s ^^^ b) p7) bs

/-- y_0 = M_0 ^ S and y_i = M_i for i > 0 (R100). -/
def foldState (s : FieldElement) : List FieldElement → List FieldElement
  | [] => []
  | b :: bs => (b ^^^ s) :: bs

/-- One accumulation of the stride: the XOR of two triples (R100). -/
def tripleXor (a b : Triple) : Triple := ⟨a.h ^^^ b.h, a.l ^^^ b.l, a.m ^^^ b.m⟩

/-- H_acc, L_acc, M_acc after pairing each power with its y (R100), from the given accumulators. -/
def accumulate (mul : Limb → Limb → FieldElement) : Triple → List FieldElement → List FieldElement → Triple
  | t, p :: ps, y :: ys => accumulate mul (tripleXor t (karaTriple mul p y)) ps ys
  | t, _, _ => t

/-- One wide stride over the 8 blocks `bs` (R100, R101): accumulators from 0, then one reduction. -/
def strideWith (mul : Limb → Limb → FieldElement) (reduce : Triple → FieldElement) (pow : KeyPowers) (s : FieldElement) (bs : List FieldElement) : FieldElement :=
  reduce (accumulate mul ⟨0, 0, 0⟩ pow.toList (foldState s bs))

/-- The w strides, each consuming the next 8 blocks (R100). -/
def stridesWith (stride : FieldElement → List FieldElement → FieldElement) : Nat → FieldElement → List FieldElement → FieldElement
  | 0, s, _ => s
  | w + 1, s, bs => stridesWith stride w (stride s (bs.take 8)) (bs.drop 8)

/-- R98 and R102 with given parts: r = k mod 8 tail blocks, then w = k / 8 strides. -/
def engineWith (mul : FieldElement → FieldElement → FieldElement) (stride : FieldElement → List FieldElement → FieldElement)
    (p7 s : FieldElement) (bs : List FieldElement) : FieldElement :=
  let r := bs.length % 8
  stridesWith stride (bs.length / 8) (tailWith mul p7 s (bs.take r)) (bs.drop r)

/-- `wide_reduce(H_acc, L_acc, M_acc)` (R101). -/
def wideReduce (t : Triple) : FieldElement := mred (assemble t)

/-- One wide stride with the reference parts (R100, R101). -/
def stride (pow : KeyPowers) (s : FieldElement) (bs : List FieldElement) : FieldElement :=
  strideWith clmul64 wideReduce pow s bs

/-- `engine(S, POW, blk[0..k−1])` (R102). -/
def engine (s : FieldElement) (pow : KeyPowers) (bs : List FieldElement) : FieldElement :=
  engineWith fmul (stride pow) pow.p7 s bs

/-- `horner(S, G, blocks)` of R103: what the engine computes when POW is the power table of G. -/
def horner (g : FieldElement) : FieldElement → List FieldElement → FieldElement
  | s, [] => s
  | s, b :: bs => horner g (fmul (s ^^^ b) g) bs

end Sys2Proof.Machine
end

