-- ==== Sys2Proof/Machine/Update.lean ====
section
/-! DEFINITION. UPDATE (43_update.md R108). -/

namespace Sys2Proof.Machine

/-- UPDATE (43_update.md R108): NoKey, then InvalidLength, then nothing at all for LEN = 0, then the engine over
LEN / 16 blocks from ADDR. -/
def execUpdate (s : State) : Host.Outcome State Fault Refusal :=
  if s.kv = false then s.raiseError .noKey 0x03
  else if s.len.toNat % 16 ≠ 0 then s.raiseError .invalidLength 0x03
  else if s.len = 0 then s.complete 0x03
  else s.withRange s.len.toNat
    ((s.setHash (engine s.hashState s.pow (s.readBlocks s.addr (s.len.toNat / 16)))).complete 0x03)

end Sys2Proof.Machine
end

