-- ==== Sys2Proof/Machine/Dispatch.lean ====
section
/-! DEFINITION. One arm per command: the dispatch to its meaning. -/

namespace Sys2Proof.Machine

def exec (i : Instr) (s : State) : Host.Outcome State Fault Refusal :=
  match i with
  | .setkey => Sys2Proof.Machine.execSetkey s
  | .clear => Sys2Proof.Machine.execClear s
  | .update => Sys2Proof.Machine.execUpdate s
  | .sum => Sys2Proof.Machine.execSum s
  | .save => Sys2Proof.Machine.execSave s
  | .load => Sys2Proof.Machine.execLoad s
  | .clmul00 => Sys2Proof.Machine.execClmul00 s
  | .clmul11 => Sys2Proof.Machine.execClmul11 s
  | .fmul => Sys2Proof.Machine.execFmul s
  | .double => Sys2Proof.Machine.execDouble s

end Sys2Proof.Machine
end

