-- ==== Sys2Proof/Machine/Inputs.lean ====
section
/-! DEFINITION. What an input from outside does (log 1): a window access, the issue of a command (30_encoding.md R56,
R57), a host memory access, power-on reset (70_reset_and_hazards.md R139), a race (20_memory.md R49). -/

namespace Sys2Proof.Machine

/-- What a raced byte holds once the command has ended: the byte the other agent wrote, or a free byte where the command
wrote it too (log 9). -/
def racedResult (access : Option Access) (draw : Nat) (a : Limb) (byte : Byte) : Byte :=
  match access with
  | some ⟨.write, start, n⟩ => if inRange start n a then Config.racedWrite draw a else byte
  | some ⟨.read, _, _⟩ => byte
  | none => byte

/-- The end of the races of a command that made the given access: the other agents' bytes are in memory, oldest first,
and no race is pending (log 9). With no race pending this changes nothing. -/
def State.settleRaces (access : Option Access) (s : State) : State :=
  { s with
    mem := s.racing.foldr (fun w m => writeByte m w.1.toNat (racedResult access s.draw w.1 w.2)) s.mem
    racing := [] }

/-- What the step does around `exec`: the races of the command end with it (log 9). -/
def afterCommand (access : Option Access) : Host.Outcome State Fault Refusal → Host.Outcome State Fault Refusal
  | .next t => .next (t.settleRaces access)
  | .fault f => .fault f
  | .refused r => .refused r

/-- A write of v to CMD (30_encoding.md R56, R57, R61): the decoded command, or IllegalCommand with the low 8 bits of v in
LASTOP (60_exceptions.md R123, R124). -/
def State.issue (v : Limb) (s : State) : Host.Outcome State Fault Refusal :=
  match decode v with
  | .ok i => afterCommand (accessOf i s) (exec i s)
  | .error _ => afterCommand none (s.raiseError .illegalCommand (opcodeByte v))

/-- Power-on reset (70_reset_and_hazards.md R139, R140): every piece of the core's state at its reset value, the capability
inputs sampled. What lies outside the core (memory, platform, host) is not touched (log 6). -/
def State.powerOn (clmul xor3 : Bool) (s : State) : State :=
  { State.resetWith clmul xor3 with
    mem := s.mem, refused := s.refused, inputs := s.inputs, hostWord := s.hostWord, hostByte := s.hostByte,
    racing := s.racing, draw := s.draw }

/-- One input from outside takes effect. -/
def State.perform (op : HostOp) (s : State) : Host.Outcome State Fault Refusal :=
  match op with
  | .writeReg index value => if index = 0 then s.issue value else .next (s.writeWindow index value)
  | .readReg index => .next { s with hostWord := s.readWindow index }
  | .writeMem a b => .next { s with mem := writeByte s.mem a.toNat b }
  | .readMem a => .next { s with hostByte := readByte s.mem a.toNat }
  | .powerOn clmul xor3 => .next (s.powerOn clmul xor3)
  | .race a b => .next { s with racing := (a, b) :: s.racing, draw := s.draw + 1 }

/-- The latency of the command that a write of v to CMD issues (R148): the open parameter LAT of its opcode and LEN. No
rule depends on it (log 12). -/
def State.latency (s : State) (v : Limb) : Nat := Config.lat (opcodeByte v) s.len

end Sys2Proof.Machine
end

