-- ==== Sys2Proof/Machine/Step.lean ====
section
/-! DEFINITION. One step: the next input from outside takes effect; with none, the core waits (70_reset_and_hazards.md
R142). -/

namespace Sys2Proof.Machine

/-- One step (logs 1, 2). -/
def step (s : State) : Host.Outcome State Fault Refusal :=
  match s.inputs with
  | [] => .next s
  | op :: rest => State.perform op { s with inputs := rest }

/-- `s` with the instruction whose bits are `w` as the next thing the host issues: its word, zero-extended to 64 bits,
written to CMD (30_encoding.md R56; log 18). -/
def State.withFetchWord (s : State) (nbits w : Nat) : State :=
  { s with inputs := .writeReg 0 (BitVec.ofNat 64 (w % 2 ^ nbits)) :: s.inputs }

end Sys2Proof.Machine
end

