-- ==== Sys2Proof/Machine/Realisations.lean ====
section
/-! DEFINITION. The backends' own algorithms (00_scope.md R3, R9; 40_clmul.md R67, R70, R71; 41_fmul.md R79, R82). The
commands compute with the reference functions whatever the backend, as R9 says; these are what the statements of backend
agreement are about (log 11). -/

namespace Sys2Proof.Machine

/-- m_s: the 64-bit mask of the bits b with b mod 5 = s (40_clmul.md R67). -/
def stripeMask : Nat → Limb
  | 0 => 0x1084210842108421
  | 1 => 0x2108421084210842
  | 2 => 0x4210842108421084
  | 3 => 0x8421084210842108
  | _ => 0x0842108421084210

/-- R_t: the 128-bit mask of the bits b with b mod 5 = t (R67). -/
def resultMask : Nat → FieldElement
  | 0 => 0x21084210842108421084210842108421
  | 1 => 0x42108421084210842108421084210842
  | 2 => 0x84210842108421084210842108421084
  | 3 => 0x08421084210842108421084210842108
  | _ => 0x10842108421084210842108421084210

/-- One masked integer product of the bit-sliced multiply (R67). -/
def stripeProduct (x y : Limb) (i j : Nat) : FieldElement :=
  ((x &&& stripeMask i).zeroExtend 128 * (y &&& stripeMask j).zeroExtend 128) &&& resultMask ((i + j) % 5)

/-- `ctmul_portable(x, y)` (R67): the XOR of the 25 masked products. -/
def clmulPortable (x y : Limb) : FieldElement :=
  (List.range 5).foldl (fun acc i => (List.range 5).foldl (fun acc j => acc ^^^ stripeProduct x y i j) acc) 0

/-- CLMUL0x00 of two 128-bit vectors: the product of lanes 0 (R70). -/
def laneMul00 (a b : FieldElement) : FieldElement := clmul64 (lo a) (lo b)

/-- CLMUL0x11 of two 128-bit vectors: the product of lanes 1 (R70). -/
def laneMul11 (a b : FieldElement) : FieldElement := clmul64 (hi a) (hi b)

/-- A 64×64 product on the vector unit. DESIGN CHOICE, safe (log 21): R82 does not say which lane product of R70 forms which
Karatsuba product; here each pair of limbs is placed in lane 0 and multiplied by CLMUL0x00. -/
def clmulVector (x y : Limb) : FieldElement := laneMul00 (limbs 0 x) (limbs 0 y)

/-- The 3-way XOR a ^ b ^ c of HwClmul3Xor on 128-bit vectors (R71). -/
def xor3 (a b c : FieldElement) : FieldElement := a ^^^ b ^^^ c

/-- Karatsuba assembly with 3-way XORs (R71): the middle term M ^ H ^ L in one operation, then its halves. DESIGN CHOICE,
safe (log 21): R71 does not say which XORs the 3-way XOR replaces. -/
def assemble3Xor (t : Triple) : Wide :=
  let mid := xor3 t.m t.h t.l
  ⟨hi t.h, lo t.h ^^^ hi mid, hi t.l ^^^ lo mid, lo t.l⟩

/-- `sxred(h1, h0, l1, l0, m1, m0)` (41_fmul.md R79), in single-assignment form. -/
def sxred (h1 h0 l1 l0 m1 m0 : Limb) : FieldElement :=
  let m0' := m0 ^^^ l0 ^^^ h0
  let m1' := m1 ^^^ l1 ^^^ h1
  let l1' := l1 ^^^ m0' ^^^ (l0 <<< 63) ^^^ (l0 <<< 62) ^^^ (l0 <<< 57)
  let h0' := h0 ^^^ l0 ^^^ (l0 >>> 1) ^^^ (l0 >>> 2) ^^^ (l0 >>> 7)
  let h0'' := h0' ^^^ m1' ^^^ (l1' <<< 63) ^^^ (l1' <<< 62) ^^^ (l1' <<< 57)
  let h1' := h1 ^^^ l1' ^^^ (l1' >>> 1) ^^^ (l1' >>> 2) ^^^ (l1' >>> 7)
  limbs h1' h0''

/-- The 64×64 multiplier a backend uses (R67, R70). -/
def backendMul : Backend → Limb → Limb → FieldElement
  | .portable => clmulPortable
  | .hwClmul => clmulVector
  | .hwClmul3Xor => clmulVector

/-- The reduction of the three Karatsuba products a backend uses (41_fmul.md R82; 92_eei_decisions.md D26). -/
def backendReduce : Backend → Triple → FieldElement
  | .portable, t => sxred (hi t.h) (lo t.h) (hi t.l) (lo t.l) (hi t.m) (lo t.m)
  | .hwClmul, t => mred (assemble t)
  | .hwClmul3Xor, t => mred (assemble3Xor t)

/-- A backend's fmul (R82). -/
def backendFmul (be : Backend) (a b : FieldElement) : FieldElement :=
  backendReduce be (karaTriple (backendMul be) a b)

/-- A backend's power table (42_double_powers.md R92). -/
def backendPowers (be : Backend) (h : FieldElement) : KeyPowers := powersWith (backendFmul be) h

/-- A backend's block engine (43_update.md R102). -/
def backendEngine (be : Backend) (s : FieldElement) (pow : KeyPowers) (bs : List FieldElement) : FieldElement :=
  engineWith (backendFmul be) (strideWith (backendMul be) (backendReduce be) pow) pow.p7 s bs

end Sys2Proof.Machine
end

