-- ==== Sys2Proof/Safety.lean ====
section
/-! DEFINITION. What claims are stated in: the invariant of the machine, what of a state can be observed, and the
polynomials over GF(2) that bit vectors stand for (00_scope.md R15). -/

namespace Sys2Proof

open Machine

/-- The commands after which STATUS can show each code (10_state.md R25: the "raised by" column). LASTOP is 0x00 beside OK
only before the first command after power-on reset (70_reset_and_hazards.md R139). -/
def statusLegal (err : ErrCode) (op : Byte) : Bool :=
  match err with
  | .ok => op.toNat ≤ 0x06 || (0x10 ≤ op.toNat && op.toNat ≤ 0x12)
  | .invalidKeyLength => op == 0x01
  | .invalidKey => op == 0x01
  | .invalidLength => op == 0x03 || op == 0x05 || op == 0x06
  | .noKey => op == 0x03 || op == 0x04 || op == 0x05
  | .illegalCommand => true

/-- What every step keeps. -/
structure MachineInv (s : State) : Prop where
  /-- The memory is in its canonical form. -/
  memory : memoryWf s.mem = true
  /-- The backend is the one the sampled inputs select (10_state.md R34; 70_reset_and_hazards.md R140, R141). -/
  backend : s.be = selectBackend s.capClmul s.capXor3
  /-- An error of the last command shows in the sticky flag (10_state.md R26). -/
  sticky : s.err ≠ .ok → s.ef = true
  /-- STATUS shows a code only with a command that raises it (10_state.md R25). -/
  status : statusLegal s.err s.lastOp = true
  /-- While KV = 0 the Context registers still hold their reset values (10_state.md R28 to R31; 70_reset_and_hazards.md R139). -/
  keyless : s.kv = false → s.hKey = 0 ∧ s.pow = ⟨0, 0, 0, 0, 0, 0, 0, 0⟩ ∧ s.hashState = 0
  /-- NoKey is the last error only while there is no key (10_state.md R31; 60_exceptions.md R122). -/
  noKey : s.err = .noKey → s.kv = false

/-- The state with a Context blanked out that nothing may show: H, POW and S while KV = 0 (10_state.md R32). -/
def hideUnkeyed (s : State) : State :=
  if s.kv then s else { s with hKey := 0, pow := ⟨0, 0, 0, 0, 0, 0, 0, 0⟩, hashState := 0 }

/-- The outcome with its next state, if there is one, changed. -/
def mapNext (f : State → State) : Host.Outcome State Fault Refusal → Host.Outcome State Fault Refusal
  | .next t => .next (f t)
  | .fault r => .fault r
  | .refused r => .refused r

/-- The addresses a command accesses, in range order (20_memory.md R46, R151). -/
def accessedAddrs (i : Instr) (s : State) : List Limb :=
  match accessOf i s with
  | some a => rangeAddrs a.start a.count
  | none => []

/-- Every piece of the core's state holds the value power-on reset gives it, the capability inputs having the given values:
the table of 70_reset_and_hazards.md R139, row by row, with R140 for the backend. -/
structure HoldsResetValues (clmul xor3 : Bool) (t : State) : Prop where
  cmd : t.readWindow 0x00 = 0
  addr : t.readWindow 0x02 = 0
  len : t.readWindow 0x03 = 0
  operands : t.readWindow 0x04 = 0 ∧ t.readWindow 0x05 = 0 ∧ t.readWindow 0x06 = 0 ∧ t.readWindow 0x07 = 0
  result : t.readWindow 0x08 = 0 ∧ t.readWindow 0x09 = 0
  /-- KV, EF, ERR, LASTOP and the reserved bits are 0; BACKEND is the code of BE. -/
  status : t.readWindow 0x01 = (backendCode t.be).zeroExtend 64 <<< 8
  /-- CAP.CLMUL and CAP.XOR3 are the inputs; the reserved bits are 0. -/
  cap : t.readWindow 0x0A = (BitVec.ofBool clmul).zeroExtend 64 ||| (BitVec.ofBool xor3).zeroExtend 64 <<< 1
  hKey : t.hKey = 0
  pow : ∀ i, t.pow.get i = 0
  hashState : t.hashState = 0
  kv : t.kv = false
  backend : t.be = if clmul ∧ xor3 then .hwClmul3Xor else if clmul then .hwClmul else .portable

/-- The polynomial over GF(2) whose coefficient of x^k is bit k (R15). -/
noncomputable def bitsPoly {w : Nat} (v : BitVec w) : Polynomial (ZMod 2) :=
  ∑ k ∈ Finset.range w, if v.getLsbD k then Polynomial.X ^ k else 0

/-- The polynomial of a 256-bit value (X3, X2, X1, X0) (00_scope.md R14). -/
noncomputable def widePoly (x : Wide) : Polynomial (ZMod 2) := bitsPoly (x.x3 ++ x.x2 ++ x.x1 ++ x.x0)

/-- P(x) = x^128 + x^127 + x^126 + x^121 + 1 (00_scope.md R1). -/
noncomputable def polyP : Polynomial (ZMod 2) :=
  Polynomial.X ^ 128 + Polynomial.X ^ 127 + Polynomial.X ^ 126 + Polynomial.X ^ 121 + 1

/-- Equal modulo P, as polynomials over GF(2). -/
def CongruentModP (a b : Polynomial (ZMod 2)) : Prop := polyP ∣ a - b

end Sys2Proof
end

