-- ==== Sys2Proof/Certificates/Slice0/Obligations.lean ====
section
/-! DEFINITION. The statements for the provers. Each docstring names the rule of spec/ it formalises. -/

open Sys2Proof Sys2Proof.Machine

/-! ### Encoding -/

/-- 30_encoding.md R59: the ten command words, written out, decode to the commands they stand for. -/
def Obligations.CommandWordsDecode : Prop :=
  decode 0x00000001 = .ok .setkey ∧ decode 0x00000002 = .ok .clear ∧ decode 0x00000003 = .ok .update ∧
  decode 0x00000004 = .ok .sum ∧ decode 0x00000005 = .ok .save ∧ decode 0x00000006 = .ok .load ∧
  decode 0x00000010 = .ok .clmul00 ∧ decode 0x00001110 = .ok .clmul11 ∧ decode 0x00000011 = .ok .fmul ∧
  decode 0x00000012 = .ok .double

/-- 30_encoding.md R60: over every 64-bit value, each command is decoded from its word alone. -/
def Obligations.DecodeReadsExactlyTheTable : Prop :=
  ∀ v : Limb,
    (decode v = .ok .setkey ↔ v = 0x00000001) ∧ (decode v = .ok .clear ↔ v = 0x00000002) ∧
    (decode v = .ok .update ↔ v = 0x00000003) ∧ (decode v = .ok .sum ↔ v = 0x00000004) ∧
    (decode v = .ok .save ↔ v = 0x00000005) ∧ (decode v = .ok .load ↔ v = 0x00000006) ∧
    (decode v = .ok .clmul00 ↔ v = 0x00000010) ∧ (decode v = .ok .clmul11 ↔ v = 0x00001110) ∧
    (decode v = .ok .fmul ↔ v = 0x00000011) ∧ (decode v = .ok .double ↔ v = 0x00000012)

/-- Decoding and encoding agree, both ways: every well-formed command is decoded from the value it is issued by, and from
no other value. -/
def Obligations.DecodeEncodeAgree : Prop :=
  ∀ i : Instr, i.wf = true → decode (cmdValue i) = .ok i ∧ ∀ v : Limb, decode v = .ok i → v = cmdValue i

/-- 30_encoding.md R61: which values are illegal, class by class, and that an illegal command ends with IllegalCommand and
changes nothing but STATUS (`settleRaces` is what other agents wrote meanwhile: nothing where no race is pending). -/
def Obligations.IllegalCommandsByClass : Prop :=
  ∀ v : Limb,
    ((∃ e, decode v = .error e) ↔
      v.extractLsb' 32 32 ≠ 0 ∨ v.extractLsb' 16 16 ≠ 0 ∨
      (v.extractLsb' 0 8 = 0x00 ∨ (0x07 ≤ v.toNat % 256 ∧ v.toNat % 256 ≤ 0x0F) ∨ 0x13 ≤ v.toNat % 256) ∨
      (v.extractLsb' 0 8 = 0x10 ∧ v.extractLsb' 8 8 ≠ 0x00 ∧ v.extractLsb' 8 8 ≠ 0x11) ∨
      (v.extractLsb' 0 8 ≠ 0x10 ∧ v.extractLsb' 8 8 ≠ 0x00)) ∧
    ∀ (s : State) (rest : List HostOp), s.inputs = .writeReg 0x00 v :: rest → (∃ e, decode v = .error e) →
      step s = .next (State.settleRaces none
        { s with inputs := rest, err := .illegalCommand, ef := true, lastOp := v.extractLsb' 0 8 }) ∧
      (s.racing = [] → step s = .next
        { s with inputs := rest, err := .illegalCommand, ef := true, lastOp := v.extractLsb' 0 8 })

/-! ### The step -/

/-- 30_encoding.md R57: a write to CMD of a value that decodes to a command runs that command; around it the step consumes
the input and, where a race is pending, settles it. -/
def Obligations.StepRunsDecodedCommand : Prop :=
  ∀ (s : State) (v : Limb) (rest : List HostOp) (i : Instr),
    s.inputs = .writeReg 0x00 v :: rest → decode v = .ok i →
    step s = (match exec i { s with inputs := rest } with
      | .next t => .next (t.settleRaces (accessOf i s))
      | .fault f => .fault f
      | .refused r => .refused r) ∧
    (s.racing = [] → step s = exec i { s with inputs := rest })

/-- 70_reset_and_hazards.md R142: with nothing from the host the core waits. -/
def Obligations.CoreWaitsWithoutInput : Prop :=
  ∀ s : State, s.inputs = [] → step s = .next s

/-- 10_state.md R22: what a host write and a host read of the window do, and who else changes STATUS, RES and CAP. -/
def Obligations.WindowAccessSemantics : Prop :=
  (∀ (s : State) (index : BitVec 8) (value : Limb) (rest : List HostOp),
    s.inputs = .writeReg index value :: rest → index ≠ 0x00 →
    ∃ t, step s = .next t ∧ ∀ j : BitVec 8,
      t.readWindow j = if j = index ∧ 0x02 ≤ index.toNat ∧ index.toNat ≤ 0x07 then value else s.readWindow j) ∧
  (∀ (s : State) (index : BitVec 8) (rest : List HostOp), s.inputs = .readReg index :: rest →
    step s = .next { s with inputs := rest, hostWord := s.readWindow index }) ∧
  (∀ (s : State) (index : BitVec 8), index = 0x00 ∨ 0x0B ≤ index.toNat → s.readWindow index = 0) ∧
  (∀ (s t : State) (op : HostOp) (rest : List HostOp), s.inputs = op :: rest → step s = .next t →
    (∀ v, op ≠ .writeReg 0x00 v) → (∀ c x, op ≠ .powerOn c x) →
    t.readWindow 0x01 = s.readWindow 0x01 ∧ t.readWindow 0x08 = s.readWindow 0x08 ∧ t.readWindow 0x09 = s.readWindow 0x09) ∧
  (∀ (s t : State) (op : HostOp) (rest : List HostOp), s.inputs = op :: rest → step s = .next t →
    (∀ c x, op ≠ .powerOn c x) → t.readWindow 0x0A = s.readWindow 0x0A)

/-- The frame of a window write (10_state.md R22): one of the six read/write registers, and nothing else of the state. -/
def Obligations.WindowWriteFrame : Prop :=
  ∀ (s : State) (index : BitVec 8) (value : Limb) (rest : List HostOp),
    s.inputs = .writeReg index value :: rest → index ≠ 0x00 →
    step s = .next { s with
      inputs := rest
      addr := if index = 0x02 then value else s.addr
      len := if index = 0x03 then value else s.len
      opaLo := if index = 0x04 then value else s.opaLo
      opaHi := if index = 0x05 then value else s.opaHi
      opbLo := if index = 0x06 then value else s.opbLo
      opbHi := if index = 0x07 then value else s.opbHi }

/-- 10_state.md R24: the layout of STATUS, field by field, as the host reads it. -/
def Obligations.StatusLayout : Prop :=
  ∀ s : State,
    (s.readWindow 0x01).extractLsb' 0 1 = BitVec.ofBool s.kv ∧
    (s.readWindow 0x01).extractLsb' 1 1 = BitVec.ofBool s.ef ∧
    (s.readWindow 0x01).extractLsb' 2 2 = 0 ∧
    (s.readWindow 0x01).extractLsb' 4 4 = errCode s.err ∧
    (s.readWindow 0x01).extractLsb' 8 2 = backendCode s.be ∧ backendCode s.be ≠ 3 ∧
    (s.readWindow 0x01).extractLsb' 10 6 = 0 ∧
    (s.readWindow 0x01).extractLsb' 16 8 = s.lastOp ∧
    (s.readWindow 0x01).extractLsb' 24 40 = 0

/-- 10_state.md R27: CAP's bits, and that they are sampled at power-on reset and change at no other step. -/
def Obligations.CapSampledAtPowerOn : Prop :=
  (∀ (s : State) (k : Nat),
    (s.readWindow 0x0A).getLsbD k = (decide (k = 0) && s.capClmul || decide (k = 1) && s.capXor3)) ∧
  (∀ (s : State) (c x : Bool) (rest : List HostOp), s.inputs = .powerOn c x :: rest →
    ∃ t, step s = .next t ∧ t.capClmul = c ∧ t.capXor3 = x) ∧
  (∀ (s t : State) (op : HostOp) (rest : List HostOp), s.inputs = op :: rest → step s = .next t →
    (∀ c x, op ≠ .powerOn c x) → t.capClmul = s.capClmul ∧ t.capXor3 = s.capXor3)

/-- 70_reset_and_hazards.md R139: power-on reset sets every piece of state to its reset value and samples the capability
inputs; the machine's reset state holds these values too. -/
def Obligations.PowerOnResetValues : Prop :=
  (∀ (s : State) (c x : Bool) (rest : List HostOp), s.inputs = .powerOn c x :: rest →
    ∃ t, step s = .next t ∧ HoldsResetValues c x t) ∧
  HoldsResetValues Config.capClmul Config.capXor3 State.reset

/-- 70_reset_and_hazards.md R140: backend selection at power-on reset, with the STATUS.BACKEND code. -/
def Obligations.BackendSelectedAtPowerOn : Prop :=
  ∀ (s : State) (c x : Bool) (rest : List HostOp), s.inputs = .powerOn c x :: rest →
    ∃ t, step s = .next t ∧
      (c = true ∧ x = true → t.be = .hwClmul3Xor ∧ (t.readWindow 0x01).extractLsb' 8 2 = (2 : BitVec 2)) ∧
      (c = true ∧ x = false → t.be = .hwClmul ∧ (t.readWindow 0x01).extractLsb' 8 2 = (1 : BitVec 2)) ∧
      (c = false → t.be = .portable ∧ (t.readWindow 0x01).extractLsb' 8 2 = (0 : BitVec 2))

/-- What power-on reset leaves alone is the model's choice (log 6): the memory, the platform's answers, the inputs to come. -/
def Obligations.PowerOnResetFrame : Prop :=
  ∀ (s : State) (c x : Bool) (rest : List HostOp), s.inputs = .powerOn c x :: rest →
    ∃ t, step s = .next t ∧ t.mem = s.mem ∧ t.refused = s.refused ∧ t.inputs = rest ∧
      t.hostWord = s.hostWord ∧ t.hostByte = s.hostByte ∧ t.racing = s.racing

/-- 10_state.md R31, 60_exceptions.md R131, 70_reset_and_hazards.md R141, R143: at a step that is not power-on reset KV and EF
are never cleared, the backend and CAP do not change, and H and POW change only by a SETKEY or a LOAD. -/
def Obligations.OnlyPowerOnDiscards : Prop :=
  ∀ (s t : State) (op : HostOp) (rest : List HostOp), s.inputs = op :: rest → step s = .next t →
    (∀ c x, op ≠ .powerOn c x) →
    (s.kv = true → t.kv = true) ∧ (s.ef = true → t.ef = true) ∧ t.be = s.be ∧
    t.capClmul = s.capClmul ∧ t.capXor3 = s.capXor3 ∧
    (t.hKey ≠ s.hKey ∨ t.pow ≠ s.pow → op = .writeReg 0x00 0x01 ∨ op = .writeReg 0x00 0x06)

/-- The host's memory accesses (10_state.md R19; 20_memory.md R53): a host write is seen by what follows, changes no other
byte and nothing of the core; a host read returns the byte. -/
def Obligations.HostMemoryAccess : Prop :=
  (∀ (s : State) (a : Limb) (b : Byte) (rest : List HostOp), s.inputs = .writeMem a b :: rest → memoryWf s.mem = true →
    ∃ m, step s = .next { s with inputs := rest, mem := m } ∧
      ∀ x : Limb, readByte m x.toNat = if x = a then b else readByte s.mem x.toNat) ∧
  (∀ (s : State) (a : Limb) (rest : List HostOp), s.inputs = .readMem a :: rest →
    step s = .next { s with inputs := rest, hostByte := readByte s.mem a.toNat })

/-! ### The end of a command, errors -/

/-- From 10_state.md R26: what the end of every command, a legal or an illegal one, leaves in STATUS. Which code a command
writes is said by ErrorCauses, and for an illegal one by IllegalCommandsByClass. -/
def Obligations.StatusAtEndOfCommand : Prop :=
  ∀ (s t : State) (v : Limb) (rest : List HostOp), s.inputs = .writeReg 0x00 v :: rest → step s = .next t →
    (t.readWindow 0x01).extractLsb' 16 8 = v.extractLsb' 0 8 ∧
    (t.readWindow 0x01).extractLsb' 4 4 = errCode t.err ∧ (errCode t.err = 0 ↔ t.err = .ok) ∧
    t.ef = (s.ef || t.err != .ok) ∧
    (t.readWindow 0x01).extractLsb' 0 1 = BitVec.ofBool t.kv ∧
    (t.readWindow 0x01).extractLsb' 8 2 = (s.readWindow 0x01).extractLsb' 8 2 ∧
    (t.readWindow 0x01).extractLsb' 2 2 = (s.readWindow 0x01).extractLsb' 2 2 ∧
    (t.readWindow 0x01).extractLsb' 10 6 = (s.readWindow 0x01).extractLsb' 10 6 ∧
    (t.readWindow 0x01).extractLsb' 24 40 = (s.readWindow 0x01).extractLsb' 24 40

/-- 60_exceptions.md R119 to R122: each error is raised by exactly the commands and under exactly the conditions named; the
conditions carry the order of the checks (R127). -/
def Obligations.ErrorCauses : Prop :=
  ∀ (i : Instr) (s : State),
    ((∃ t, exec i s = .next t ∧ t.err = .invalidKeyLength) ↔ i = .setkey ∧ s.len ≠ 16) ∧
    ((∃ t, exec i s = .next t ∧ t.err = .invalidKey) ↔
      i = .setkey ∧ s.len = 16 ∧ s.memAdmits s.addr 16 = true ∧ ∀ k < 16, s.coreByte (byteAddr s.addr k) = 0) ∧
    ((∃ t, exec i s = .next t ∧ t.err = .invalidLength) ↔
      (i = .update ∧ s.kv = true ∧ s.len.toNat % 16 ≠ 0) ∨ (i = .load ∧ s.len ≠ 160) ∨
      (i = .save ∧ s.kv = true ∧ s.len ≠ 160)) ∧
    ((∃ t, exec i s = .next t ∧ t.err = .noKey) ↔ (i = .update ∨ i = .sum ∨ i = .save) ∧ s.kv = false) ∧
    ¬ ∃ t, exec i s = .next t ∧ t.err = .illegalCommand

/-- 60_exceptions.md R125: a command that ends with an error changes nothing but STATUS and accesses no memory, except that
SETKEY ending with InvalidKey has read its 16 key bytes. (For an illegal command see IllegalCommandsByClass.) -/
def Obligations.ErrorsArePrecise : Prop :=
  ∀ (i : Instr) (s t : State), exec i s = .next t → t.err ≠ .ok →
    t = { s with err := t.err, ef := true, lastOp := opcodeOf i } ∧
    accessOf i s = if t.err = .invalidKey then some ⟨.read, s.addr, 16⟩ else none

/-- 60_exceptions.md R118, 20_memory.md R45: a command ends with a next state unless the platform does not admit the range
it accesses; then it has no step, which the model shows as a fault (log 4). No command is refused. -/
def Obligations.CommandsEndOrAreStuck : Prop :=
  ∀ (i : Instr) (s : State),
    ((∃ t, exec i s = .next t) ↔ ∀ a, accessOf i s = some a → s.memAdmits a.start a.count = true) ∧
    (∀ f, exec i s = .fault f ↔
      ∃ a, accessOf i s = some a ∧ s.memAdmits a.start a.count = false ∧ f = .rangeNotAdmitted a.start a.count) ∧
    ∀ r, exec i s ≠ .refused r

/-- 60_exceptions.md R126: CLMUL00, CLMUL11, FMUL, DOUBLE and CLEAR always complete. -/
def Obligations.ArithmeticNeverFails : Prop :=
  ∀ (i : Instr) (s : State), i = .clmul00 ∨ i = .clmul11 ∨ i = .fmul ∨ i = .double ∨ i = .clear →
    ∃ t, exec i s = .next t ∧ t.err = .ok ∧ t.ef = s.ef ∧ t.kv = s.kv

/-! ### Frames -/

/-- What no command but those named changes (10_state.md R28 to R31; 20_memory.md R40; 70_reset_and_hazards.md R146): the
window operands, CAP, BE and everything outside the core never; H, POW and KV only by SETKEY and LOAD; S only by SETKEY,
CLEAR, UPDATE and LOAD; RES only by SUM and the four arithmetic commands; memory only by SAVE. -/
def Obligations.CommandFrame : Prop :=
  ∀ (i : Instr) (s t : State), exec i s = .next t →
    (t.addr = s.addr ∧ t.len = s.len ∧ t.opaLo = s.opaLo ∧ t.opaHi = s.opaHi ∧ t.opbLo = s.opbLo ∧ t.opbHi = s.opbHi) ∧
    (t.capClmul = s.capClmul ∧ t.capXor3 = s.capXor3 ∧ t.be = s.be) ∧
    (t.refused = s.refused ∧ t.inputs = s.inputs ∧ t.hostWord = s.hostWord ∧ t.hostByte = s.hostByte ∧
      t.racing = s.racing ∧ t.draw = s.draw) ∧
    (i ≠ .setkey → i ≠ .load → t.hKey = s.hKey ∧ t.pow = s.pow ∧ t.kv = s.kv) ∧
    (i ≠ .setkey → i ≠ .clear → i ≠ .update → i ≠ .load → t.hashState = s.hashState) ∧
    (i = .setkey ∨ i = .clear ∨ i = .update ∨ i = .save ∨ i = .load → t.resLo = s.resLo ∧ t.resHi = s.resHi) ∧
    (i ≠ .save → ∀ a : Nat, readByte t.mem a = readByte s.mem a)

/-- 20_memory.md R46: a command's effect does not depend on a byte of memory outside the range it reads, nor on whether
another agent writes one there. -/
def Obligations.OnlyTheRangeIsRead : Prop :=
  ∀ (i : Instr) (s : State) (m : Memory) (ws : List (Limb × Byte)),
    (∀ a : Access, accessOf i s = some a → a.kind = .read → ∀ x : Limb, inRange a.start a.count x = true →
      State.coreByte { s with mem := m, racing := ws } x = s.coreByte x) →
    mapNext (fun t => { t with mem := [], racing := [] }) (exec i { s with mem := m, racing := ws }) =
      mapNext (fun t => { t with mem := [], racing := [] }) (exec i s)

/-- 10_state.md R32: while KV = 0 no command's effect and no window read depends on H, POW or S; UPDATE, SUM and SAVE end with
NoKey. -/
def Obligations.UnkeyedContextIsHidden : Prop :=
  (∀ (i : Instr) (s : State), mapNext hideUnkeyed (exec i (hideUnkeyed s)) = mapNext hideUnkeyed (exec i s)) ∧
  (∀ (s : State) (index : BitVec 8), (hideUnkeyed s).readWindow index = s.readWindow index) ∧
  (∀ (i : Instr) (s : State), s.kv = false → i = .update ∨ i = .sum ∨ i = .save →
    ∃ t, exec i s = .next t ∧ t.err = .noKey)

/-- 00_scope.md R9: no command's effect depends on the backend, and no window read but STATUS.BACKEND shows it. -/
def Obligations.BackendIsUnobservable : Prop :=
  ∀ (i : Instr) (s : State) (be : Backend),
    exec i { s with be := be } = mapNext (fun t => { t with be := be }) (exec i s) ∧
    (∀ index : BitVec 8, index ≠ 0x01 → State.readWindow { s with be := be } index = s.readWindow index) ∧
    ∀ k : Nat, k ≠ 8 → k ≠ 9 →
      (State.readWindow { s with be := be } 0x01).getLsbD k = (s.readWindow 0x01).getLsbD k

/-- 70_reset_and_hazards.md R148: the addresses a command accesses, and its latency, are the same in any two states with the
same ADDR, LEN and KV, whatever the key, the message, S, POW and the operands. (That KV counts is read from 20_memory.md
R46: log 16.) -/
def Obligations.AccessSequenceIsDataIndependent : Prop :=
  ∀ (i : Instr) (s t : State), s.addr = t.addr → s.len = t.len → s.kv = t.kv →
    accessedAddrs i s = accessedAddrs i t ∧ s.latency (cmdValue i) = t.latency (cmdValue i)

/-! ### Memory -/

/-- 20_memory.md R44 (with R41): MemRead is the little-endian value of the bytes at addr + i modulo 2^64, and MemWrite stores
v[8i+7:8i] there and nothing else. -/
def Obligations.MemReadAndMemWrite : Prop :=
  (∀ (s : State) (a : Limb) (n : Nat), s.racing = [] →
    s.memRead a n = ∑ i ∈ Finset.range n, (readByte s.mem ((a.toNat + i) % 2 ^ 64)).toNat * 2 ^ (8 * i)) ∧
  (∀ (m : Memory) (a : Limb) (n v : Nat), memoryWf m = true → n ≤ 2 ^ 64 →
    (∀ i < n, readByte (writeBytes m a (leBytes n v)) ((a.toNat + i) % 2 ^ 64) = BitVec.ofNat 8 (v / 2 ^ (8 * i))) ∧
    ∀ x : Limb, (∀ i < n, x.toNat ≠ (a.toNat + i) % 2 ^ 64) →
      readByte (writeBytes m a (leBytes n v)) x.toNat = readByte m x.toNat)

/-- 20_memory.md R43: a 16-byte element's limbs are the little-endian values of its two 8-byte halves. -/
def Obligations.ElementLimbsInMemory : Prop :=
  ∀ (s : State) (a : Limb),
    (lo (s.readElem a)).toNat = s.memRead a 8 ∧ (hi (s.readElem a)).toNat = s.memRead (a + 8) 8

/-- 20_memory.md R49 and log 9: a race reaches only the raced bytes; what the core sees elsewhere, and what memory holds
elsewhere afterwards, is as without it; a raced byte the command does not write holds the other agent's byte. -/
def Obligations.RaceReachesOnlyRacedBytes : Prop :=
  ∀ (s : State) (access : Option Access), memoryWf s.mem = true →
    (∀ x : Limb, (∀ w ∈ s.racing, w.1 ≠ x) →
      s.coreByte x = readByte s.mem x.toNat ∧
      readByte (s.settleRaces access).mem x.toNat = readByte s.mem x.toNat) ∧
    (∀ (a : Limb) (b : Byte) (ws : List (Limb × Byte)), s.racing = (a, b) :: ws →
      (∀ start n, access = some ⟨.write, start, n⟩ → inRange start n a = false) →
      readByte (s.settleRaces access).mem a.toNat = b)

/-! ### Carry-less multiply -/

/-- 40_clmul.md R64, R65: bit k of the product is the XOR of x[i] & y[j] over i + j = k; bit 127 is 0; `ctmul` gives its two
limbs. -/
def Obligations.ClmulBitByBit : Prop :=
  ∀ x y : Limb,
    (∀ k < 128, (clmul64 x y).getLsbD k =
      ((List.range 64).map fun i => x.getLsbD i && (decide (i ≤ k) && y.getLsbD (k - i))).foldl xor false) ∧
    (clmul64 x y).getLsbD 127 = false ∧
    (ctmul x y).1 = (clmul64 x y).extractLsb' 64 64 ∧ (ctmul x y).2 = (clmul64 x y).extractLsb' 0 64

/-- 40_clmul.md R66: the laws of ctmul. -/
def Obligations.ClmulLaws : Prop :=
  ∀ x y z : Limb,
    ctmul x y = ctmul y x ∧ ctmul 0 y = (0, 0) ∧ ctmul 1 y = (0, y) ∧
    ((ctmul x y).1 ^^^ (ctmul x z).1, (ctmul x y).2 ^^^ (ctmul x z).2) = ctmul x (y ^^^ z) ∧
    (ctmul x y = (0, 0) ↔ x = 0 ∨ y = 0) ∧
    (∀ n ≤ 63, clmul64 x (1 <<< n) = x.zeroExtend 128 <<< n) ∧
    (∀ m n : Nat, x.toNat < 2 ^ m → y.toNat < 2 ^ n → m + n ≤ 65 → (ctmul x y).1 = 0)

/-- 40_clmul.md R73, R74: CLMUL00 and CLMUL11 complete in every state; RES takes the product of the low or the high limbs,
STATUS is written, and nothing else changes. With the corner cases and examples of the two rules. -/
def Obligations.ClmulCommands : Prop :=
  (∀ s : State,
    exec .clmul00 s = .next { s with
      resHi := (ctmul s.opaLo s.opbLo).1, resLo := (ctmul s.opaLo s.opbLo).2, err := .ok, lastOp := 0x10 } ∧
    exec .clmul11 s = .next { s with
      resHi := (ctmul s.opaHi s.opbHi).1, resLo := (ctmul s.opaHi s.opbHi).2, err := .ok, lastOp := 0x10 }) ∧
  (∀ x : Limb, ctmul x 0 = (0, 0) ∧ ctmul 0 x = (0, 0) ∧ ctmul 1 x = (0, x)) ∧
  (∀ x y : Limb, (ctmul x y).1.getLsbD 63 = false) ∧
  ctmul 0xFFFFFFFFFFFFFFFF 0xFFFFFFFFFFFFFFFF = (0x5555555555555555, 0x5555555555555555) ∧
  ctmul 3 3 = (0, 5) ∧
  ctmul 0x8000000000000000 0x8000000000000000 = (0x4000000000000000, 0) ∧
  ctmul 0xC200000000000000 0xC200000000000000 = (0x5004000000000000, 0)

/-- 40_clmul.md R67 (argued in R68): the masks are the stripes of every fifth bit, and the bit-sliced multiply gives the
carry-less product for every input. -/
def Obligations.PortableMultiplierExact : Prop :=
  (∀ s < 5, (∀ b < 64, (stripeMask s).getLsbD b = decide (b % 5 = s)) ∧
    ∀ b < 128, (resultMask s).getLsbD b = decide (b % 5 = s)) ∧
  ∀ x y : Limb, clmulPortable x y = clmul64 x y

/-! ### Field multiply -/

/-- 41_fmul.md R76: kara gives the full carry-less product; its bit 255 is 0; it is commutative and distributes over XOR. -/
def Obligations.KaratsubaIsTheFullProduct : Prop :=
  ∀ a b c : FieldElement,
    widePoly (kara a b) = bitsPoly a * bitsPoly b ∧ (kara a b).x3.getLsbD 63 = false ∧ kara a b = kara b a ∧
    (kara a (b ^^^ c)).x3 = (kara a b).x3 ^^^ (kara a c).x3 ∧ (kara a (b ^^^ c)).x2 = (kara a b).x2 ^^^ (kara a c).x2 ∧
    (kara a (b ^^^ c)).x1 = (kara a b).x1 ^^^ (kara a c).x1 ∧ (kara a (b ^^^ c)).x0 = (kara a b).x0 ^^^ (kara a c).x0

/-- 41_fmul.md R78: mred(X) is X·x^−128 mod P, the one representative of degree below 128; and x^−128 mod P. -/
def Obligations.ReductionIsMontgomery : Prop :=
  (∀ (x : Wide) (e : FieldElement), e = mred x ↔ CongruentModP (bitsPoly e * Polynomial.X ^ 128) (widePoly x)) ∧
  CongruentModP (bitsPoly (0x92040000000000000000000000000001 : FieldElement) * Polynomial.X ^ 128) 1

/-- 41_fmul.md R80: the shift-XOR reduction agrees with Gueron's on every input. -/
def Obligations.ReductionsAgree : Prop :=
  ∀ h1 h0 l1 l0 m1 m0 : Limb,
    sxred h1 h0 l1 l0 m1 m0 = mred ⟨h1, h0 ^^^ m1 ^^^ h1 ^^^ l1, l1 ^^^ m0 ^^^ h0 ^^^ l0, l0⟩

/-- 41_fmul.md R81: fmul is the Montgomery product a·b·x^−128 mod P. -/
def Obligations.FmulIsMontgomeryProduct : Prop :=
  ∀ a b : FieldElement,
    fmul a b = mred (kara a b) ∧ CongruentModP (bitsPoly (fmul a b) * Polynomial.X ^ 128) (bitsPoly a * bitsPoly b)

/-- The ring laws of 41_fmul.md R83 (its last sentence, that the field has no zero divisors, is not part of this
statement). -/
def Obligations.FmulRingLaws : Prop :=
  ∀ a b c : FieldElement,
    fmul a b = fmul b a ∧ fmul (fmul a b) c = fmul a (fmul b c) ∧ fmul a (b ^^^ c) = fmul a b ^^^ fmul a c ∧
    fmul 0 b = 0 ∧ fmul 0xC2000000000000000000000000000001 b = b ∧
    CongruentModP (bitsPoly (0xC2000000000000000000000000000001 : FieldElement)) (Polynomial.X ^ 128) ∧
    fmul 1 1 = 0x92040000000000000000000000000001

/-- 41_fmul.md R86: FMUL completes in every state; RES takes fmul(OPA, OPB), STATUS is written, and nothing else changes.
With the rule's corner cases and its example. -/
def Obligations.FmulCommand : Prop :=
  (∀ s : State, exec .fmul s = .next { s with
    resHi := (fmul (s.opaHi ++ s.opaLo) (s.opbHi ++ s.opbLo)).extractLsb' 64 64
    resLo := (fmul (s.opaHi ++ s.opaLo) (s.opbHi ++ s.opbLo)).extractLsb' 0 64
    err := .ok
    lastOp := 0x11 }) ∧
  (∀ b : FieldElement, fmul 0 b = 0 ∧ fmul b 0 = 0 ∧ fmul 0xC2000000000000000000000000000001 b = b) ∧
  (∀ a b : FieldElement, fmul a b = fmul b a) ∧
  fmul 1 1 = 0x92040000000000000000000000000001 ∧
  fmul 0xFFFFFFFFFFFFFFFFFFFFFFFFFFFFFFFF 0xFFFFFFFFFFFFFFFFFFFFFFFFFFFFFFFF = 0x7A015555555555555555555555555555 ∧
  fmul 0x62A2012DBB621740B6DF838C66954F4F 0x7B754BBA26F8311D7642925847936225 = 0x776D08511501169C9850FF3745C6DACE

/-! ### Doubling and the power table -/

/-- 42_double_powers.md R91: DOUBLE completes in every state; RES takes double(OPA), STATUS is written, and nothing else
changes. With the rule's corner cases and its example. -/
def Obligations.DoubleCommand : Prop :=
  (∀ s : State, exec .double s = .next { s with
    resHi := (double (s.opaHi ++ s.opaLo)).extractLsb' 64 64
    resLo := (double (s.opaHi ++ s.opaLo)).extractLsb' 0 64
    err := .ok
    lastOp := 0x12 }) ∧
  double 0 = 0 ∧
  double 0x80000000000000000000000000000000 = 0xC2000000000000000000000000000001 ∧
  double 0xFFFFFFFFFFFFFFFFFFFFFFFFFFFFFFFF = 0x3DFFFFFFFFFFFFFFFFFFFFFFFFFFFFFF ∧
  (∀ a : FieldElement, a.getLsbD 63 = true → a.getLsbD 127 = false →
    (double a).getLsbD 64 = true ∧ double a = a <<< 1) ∧
  double 0xD852A62BA9758182ED7D38F94DC0989C = 0x72A54C5752EB0305DAFA71F29B813139

/-- 42_double_powers.md R88: double(a) is a·x mod P, the true field product. -/
def Obligations.DoubleMultipliesByX : Prop :=
  ∀ a : FieldElement, CongruentModP (bitsPoly (double a)) (bitsPoly a * Polynomial.X)

/-- 42_double_powers.md R89: the laws of double, and the walk of successive doublings from 1. -/
def Obligations.DoubleLaws : Prop :=
  (∀ a b : FieldElement, double (a ^^^ b) = double a ^^^ double b) ∧ double 0 = 0 ∧ Function.Bijective double ∧
  (∀ a : FieldElement, double a = 0 ↔ a = 0) ∧
  (∀ k : Nat, 1 ≤ k → k ≤ 127 → double^[k] 1 = (1 : FieldElement) <<< k) ∧
  double^[128] 1 = 0xC2000000000000000000000000000001

/-- 42_double_powers.md R92: the power table's recurrence. -/
def Obligations.PowerTableRecurrence : Prop :=
  ∀ h : FieldElement, (powers h).get 7 = h ∧
    ∀ i : Fin 7, (powers h).get i.castSucc = fmul ((powers h).get i.succ) h

/-- The Montgomery powers of 42_double_powers.md R93: POW[i]·x^(128·(7−i)) is H^(8−i) modulo P. -/
def Obligations.PowerTableHoldsMontgomeryPowers : Prop :=
  ∀ (h : FieldElement) (i : Fin 8),
    CongruentModP (bitsPoly ((powers h).get i) * Polynomial.X ^ (128 * (7 - i.val))) (bitsPoly h ^ (8 - i.val))

/-! ### The block engine -/

/-- 43_update.md R99, R102 (with the split of R98): over fewer than 8 tail blocks followed by whole strides, the engine is
the tail's steps and then one stride for each 8 blocks; over no block it returns S. -/
def Obligations.EngineTailThenStrides : Prop :=
  ∀ (s : FieldElement) (pow : KeyPowers) (tail : List FieldElement) (chunks : List (List FieldElement)),
    tail.length < 8 → (∀ c ∈ chunks, c.length = 8) →
    engine s pow (tail ++ chunks.flatten) =
      chunks.foldl (fun s c => stride pow s c) (tail.foldl (fun s b => fmul (s ^^^ b) pow.p7) s) ∧
    engine s pow [] = s

/-- 43_update.md R100, R101: one stride over the blocks M_0..M_7 is one reduction of the three XOR sums, with block M_i
paired with POW[i] and S folded into M_0. -/
def Obligations.StrideReducesThreeSums : Prop :=
  ∀ (s : FieldElement) (pow : KeyPowers) (blk y : Fin 8 → FieldElement) (hAcc lAcc mAcc : FieldElement),
    (∀ i, y i = blk i ^^^ (if i = 0 then s else 0)) →
    hAcc = (List.finRange 8).foldl (fun t i => t ^^^ clmul64 (hi (pow.get i)) (hi (y i))) 0 →
    lAcc = (List.finRange 8).foldl (fun t i => t ^^^ clmul64 (lo (pow.get i)) (lo (y i))) 0 →
    mAcc = (List.finRange 8).foldl
      (fun t i => t ^^^ clmul64 (hi (pow.get i) ^^^ lo (pow.get i)) (hi (y i) ^^^ lo (y i))) 0 →
    stride pow s (List.ofFn blk) =
      mred ⟨hi hAcc, lo hAcc ^^^ hi mAcc ^^^ hi hAcc ^^^ hi lAcc, hi lAcc ^^^ lo mAcc ^^^ lo hAcc ^^^ lo lAcc, lo lAcc⟩

/-- 43_update.md R103: with the power table of some G, the engine is Horner's recurrence with G. -/
def Obligations.EngineIsHorner : Prop :=
  ∀ (g s : FieldElement) (blocks : List FieldElement), engine s (powers g) blocks = horner g s blocks

/-- 43_update.md R106, for the engine: with a power table, the engine over two pieces in order gives what the engine over
their concatenation gives; it equals a pure single-block path; and one block from S = 0 gives fmul(X, H). -/
def Obligations.EngineChunkingEquivalence : Prop :=
  ∀ (g s x : FieldElement) (bs cs : List FieldElement),
    engine (engine s (powers g) bs) (powers g) cs = engine s (powers g) (bs ++ cs) ∧
    engine s (powers g) bs = bs.foldl (fun t b => engine t (powers g) [b]) s ∧
    engine 0 (powers g) [x] = fmul x g

/-- 43_update.md R104: with a table that is no power table the result can depend on the split. -/
def Obligations.InconsistentTableDependsOnSplit : Prop :=
  ∃ (s : FieldElement) (pow : KeyPowers) (bs cs : List FieldElement),
    engine (engine s pow bs) pow cs ≠ engine s pow (bs ++ cs)

/-- 41_fmul.md R82, 00_scope.md R9: on every backend the field product, the power table and the block engine give the results
of the reference functions. That commands compute with the reference functions is log 11; the lane each product uses and
the place of the 3-way XOR are the model's choice, log 21. -/
def Obligations.BackendsAgree : Prop :=
  ∀ (be : Backend) (a b s : FieldElement) (pow : KeyPowers) (blocks : List FieldElement),
    backendFmul be a b = fmul a b ∧ backendPowers be a = powers a ∧
    backendEngine be s pow blocks = engine s pow blocks

/-! ### UPDATE and the context commands -/

/-- 43_update.md R108: UPDATE, case by case in the order of its checks, and the value of the rule's example. (On a range the
platform does not admit: CommandsEndOrAreStuck; so for SETKEY, SAVE and LOAD below.) -/
def Obligations.UpdateCommand : Prop :=
  ∀ s : State,
    (s.kv = false → exec .update s = .next { s with err := .noKey, ef := true, lastOp := 0x03 }) ∧
    (s.kv = true → s.len.toNat % 16 ≠ 0 →
      exec .update s = .next { s with err := .invalidLength, ef := true, lastOp := 0x03 }) ∧
    (s.kv = true → s.len = 0 → exec .update s = .next { s with err := .ok, lastOp := 0x03 }) ∧
    (s.kv = true → s.len ≠ 0 → s.len.toNat % 16 = 0 → s.memAdmits s.addr s.len.toNat = true →
      exec .update s = .next { s with
        hashState := engine s.hashState s.pow
          ((List.range (s.len.toNat / 16)).map fun j => s.readElem (s.addr + BitVec.ofNat 64 (16 * j)))
        err := .ok
        lastOp := 0x03 }) ∧
    engine 0 (powers 0x7B754BBA26F8311D7642925847936225)
      [0x62A2012DBB621740B6DF838C66954F4F, 0x62F3C9D3205FE4BB06D02127DD4DA2D1] = 0x7EB7E5F56C86B7E5FA1961847BB4A3F7

/-- 43_update.md R106, for the command: with a power table and no race, two UPDATEs over adjacent pieces leave the S that one
UPDATE over both leaves. -/
def Obligations.UpdateChunkingEquivalence : Prop :=
  ∀ (s : State) (g : FieldElement) (n1 n2 : Limb),
    s.kv = true → s.pow = powers g → n1.toNat % 16 = 0 → n2.toNat % 16 = 0 → n1.toNat + n2.toNat < 2 ^ 64 →
    s.memAdmits s.addr n1.toNat = true → s.memAdmits (s.addr + n1) n2.toNat = true →
    s.memAdmits s.addr (n1 + n2).toNat = true → s.racing = [] →
    ∃ t1 t2 u, exec .update { s with len := n1 } = .next t1 ∧
      exec .update { t1 with addr := s.addr + n1, len := n2 } = .next t2 ∧
      exec .update { s with len := n1 + n2 } = .next u ∧ t2.hashState = u.hashState

/-- 44_context.md R109: SETKEY, case by case in the order of its checks, and the table of the rule's example; on success the
invariants of 10_state.md R33 hold. -/
def Obligations.SetkeyCommand : Prop :=
  ∀ s : State,
    (s.len ≠ 16 → exec .setkey s = .next { s with err := .invalidKeyLength, ef := true, lastOp := 0x01 }) ∧
    (s.len = 16 → s.memAdmits s.addr 16 = true → s.readElem s.addr = 0 →
      exec .setkey s = .next { s with err := .invalidKey, ef := true, lastOp := 0x01 }) ∧
    (s.len = 16 → s.memAdmits s.addr 16 = true → s.readElem s.addr ≠ 0 →
      exec .setkey s = .next { s with
        hKey := s.readElem s.addr
        pow := powers (s.readElem s.addr)
        hashState := 0
        kv := true
        err := .ok
        lastOp := 0x01 }) ∧
    (powers 0x7B754BBA26F8311D7642925847936225).get 7 = 0x7B754BBA26F8311D7642925847936225 ∧
    (powers 0x7B754BBA26F8311D7642925847936225).get 0 = 0xFCC250A53C16E52BEC3B091A65E4E538

/-- 44_context.md R110: CLEAR zeroes S, in every state, and changes nothing else but STATUS. -/
def Obligations.ClearCommand : Prop :=
  ∀ s : State, exec .clear s = .next { s with hashState := 0, err := .ok, lastOp := 0x02 }

/-- 44_context.md R111: SUM copies S into RES, or ends with NoKey; two SUMs in a row give the same RES. -/
def Obligations.SumCommand : Prop :=
  ∀ s : State,
    (s.kv = false → exec .sum s = .next { s with err := .noKey, ef := true, lastOp := 0x04 }) ∧
    (s.kv = true → exec .sum s = .next { s with
      resHi := s.hashState.extractLsb' 64 64, resLo := s.hashState.extractLsb' 0 64, err := .ok, lastOp := 0x04 }) ∧
    (∀ t u, exec .sum s = .next t → exec .sum t = .next u → u.resHi = t.resHi ∧ u.resLo = t.resLo)

/-- 44_context.md R112, R113: SAVE, case by case in the order of its checks; it writes the 160-byte image at ADDR, no byte
outside it, and nothing else but STATUS. -/
def Obligations.SaveCommand : Prop :=
  ∀ s : State,
    (s.kv = false → exec .save s = .next { s with err := .noKey, ef := true, lastOp := 0x05 }) ∧
    (s.kv = true → s.len ≠ 160 → exec .save s = .next { s with err := .invalidLength, ef := true, lastOp := 0x05 }) ∧
    (s.kv = true → s.len = 160 → s.memAdmits s.addr 160 = true → memoryWf s.mem = true →
      ∃ m, exec .save s = .next { s with mem := m, err := .ok, lastOp := 0x05 } ∧ memoryWf m = true ∧
        (∀ j < 10, ∀ k < 16, readByte m (byteAddr s.addr (16 * j + k)).toNat =
          ((s.hKey :: s.hashState :: s.pow.toList).getD j 0).extractLsb' (8 * k) 8) ∧
        (∀ x : Limb, inRange s.addr 160 x = false → readByte m x.toNat = readByte s.mem x.toNat))

/-- 44_context.md R114 (and R115: nothing but LEN is checked): LOAD, case by case; the 160 bytes are the image of R112. -/
def Obligations.LoadCommand : Prop :=
  ∀ s : State,
    (s.len ≠ 160 → exec .load s = .next { s with err := .invalidLength, ef := true, lastOp := 0x06 }) ∧
    (s.len = 160 → s.memAdmits s.addr 160 = true →
      exec .load s = .next { s with
        hKey := s.readElem s.addr
        hashState := s.readElem (byteAddr s.addr 16)
        pow := keyPowersOf fun i => s.readElem (byteAddr s.addr (32 + 16 * i.val))
        kv := true
        err := .ok
        lastOp := 0x06 })

/-- 44_context.md R116, R117: what SAVE wrote, LOAD restores, on this core or on any other whose memory holds the range
unmodified: H, S and POW exactly as before the SAVE, with KV = 1. That no race is pending at the LOAD is a premise about the
model's own field (log 9). -/
def Obligations.SaveLoadRoundTrip : Prop :=
  ∀ s : State, s.kv = true → s.len = 160 → s.memAdmits s.addr 160 = true → memoryWf s.mem = true →
    ∃ t, exec .save s = .next t ∧
      ∀ r : State, r.len = 160 → r.memAdmits r.addr 160 = true → r.racing = [] →
        (∀ k < 160, readByte r.mem (byteAddr r.addr k).toNat = readByte t.mem (byteAddr s.addr k).toNat) →
        exec .load r = .next { r with
          hKey := s.hKey, hashState := s.hashState, pow := s.pow, kv := true, err := .ok, lastOp := 0x06 }

/-- 30_encoding.md R63: what each pseudo-instruction expands to, as window accesses. -/
def Obligations.PseudoInstructionExpansions : Prop :=
  ∀ (v : FieldElement) (a n k d : Limb),
    assemble1 (.wr128Opa v) = [.writeReg 0x04 (v.extractLsb' 0 64), .writeReg 0x05 (v.extractLsb' 64 64)] ∧
    assemble1 (.wr128Opb v) = [.writeReg 0x06 (v.extractLsb' 0 64), .writeReg 0x07 (v.extractLsb' 64 64)] ∧
    assemble1 .rd128Res = [.readReg 0x08, .readReg 0x09] ∧
    assemble1 (.setkeyAt a) = [.writeReg 0x02 a, .writeReg 0x03 16, .writeReg 0x00 0x01] ∧
    assemble1 (.updateAt a n) = [.writeReg 0x02 a, .writeReg 0x03 n, .writeReg 0x00 0x03] ∧
    assemble1 (.saveAt a) = [.writeReg 0x02 a, .writeReg 0x03 160, .writeReg 0x00 0x05] ∧
    assemble1 (.loadAt a) = [.writeReg 0x02 a, .writeReg 0x03 160, .writeReg 0x00 0x06] ∧
    assemble1 (.oneShot k d n) = assemble1 (.setkeyAt k) ++ assemble1 (.updateAt d n) ++ [.writeReg 0x00 0x04]

/-! ### The invariant -/

/-- The invariant holds in the machine's reset state (70_reset_and_hazards.md R139). -/
def Obligations.InvariantAtReset : Prop := MachineInv State.reset

/-- Every step keeps the invariant: the memory's canonical form, the backend bound to the sampled inputs, the sticky flag,
the legal pairs of error code and command, the reset values of an unkeyed Context. -/
def Obligations.InvariantKeptByStep : Prop :=
  ∀ s t : State, MachineInv s → step s = .next t → MachineInv t
end

