-- ==== Sys2Proof/Laws/Bits.lean ====
section
/-! SUPPORT. Limbs of a field element: taking apart and putting together. -/

namespace Sys2Proof.Machine

@[simp] theorem hi_limbs (h l : Limb) : hi (limbs h l) = h := by
  apply BitVec.eq_of_getLsbD_eq
  intro i hlt
  simp only [hi, limbs, BitVec.getLsbD_extractLsb', BitVec.getLsbD_append]
  simp [hlt]

@[simp] theorem lo_limbs (h l : Limb) : lo (limbs h l) = l := by
  apply BitVec.eq_of_getLsbD_eq
  intro i hlt
  simp only [lo, limbs, BitVec.getLsbD_extractLsb', BitVec.getLsbD_append]
  simp [hlt]

@[simp] theorem limbs_hi_lo (e : FieldElement) : limbs (hi e) (lo e) = e := by
  apply BitVec.eq_of_getLsbD_eq
  intro i hlt
  simp only [hi, lo, limbs, BitVec.getLsbD_append, BitVec.getLsbD_extractLsb']
  by_cases h : i < 64
  · simp [h]
  · simp only [h, if_false]
    have h1 : i - 64 < 64 := by omega
    have h2 : 64 + (i - 64) = i := by omega
    simp [h1, h2]

@[simp] theorem hi_xor (a b : FieldElement) : hi (a ^^^ b) = hi a ^^^ hi b := by
  apply BitVec.eq_of_getLsbD_eq
  intro i hlt
  simp [hi, hlt]

@[simp] theorem lo_xor (a b : FieldElement) : lo (a ^^^ b) = lo a ^^^ lo b := by
  apply BitVec.eq_of_getLsbD_eq
  intro i hlt
  simp [lo, hlt]

@[simp] theorem hi_zero : hi 0 = 0 := rfl

@[simp] theorem lo_zero : lo 0 = 0 := rfl

end Sys2Proof.Machine
end

