-- ==== Sys2Proof/Laws/Memory.lean ====
section
/-! SUPPORT. The laws of the host data memory: read after write, and that every operation keeps the canonical form. -/

namespace Sys2Proof.Machine

@[simp] theorem readByte_nil (a : Nat) : readByte [] a = unlistedByte := rfl

/-- Below its first entry a canonical memory lists nothing. -/
theorem readByte_below {lo : Nat} {m : Memory} (h : wfAbove lo m = true) {a : Nat} (ha : a < lo) :
    readByte m a = unlistedByte := by
  induction m generalizing lo with
  | nil => rfl
  | cons kb m ih =>
    obtain ⟨k, b⟩ := kb
    simp only [wfAbove, Bool.and_eq_true, decide_eq_true_eq] at h
    have hk : k ≠ a := by omega
    simp only [readByte, if_neg hk]
    exact ih h.2 (by omega)

/-- A canonical memory stays canonical above any smaller bound. -/
theorem wfAbove_mono {lo lo' : Nat} {m : Memory} (h : wfAbove lo m = true) (hl : lo' ≤ lo) : wfAbove lo' m = true := by
  cases m with
  | nil => rfl
  | cons kb m =>
    obtain ⟨k, b⟩ := kb
    simp only [wfAbove, Bool.and_eq_true, decide_eq_true_eq] at h ⊢
    exact ⟨⟨⟨by omega, h.1.1.2⟩, h.1.2⟩, h.2⟩

/-- Read after write, on a canonical memory. -/
theorem readByte_writeByte {lo : Nat} {m : Memory} (h : wfAbove lo m = true) (a : Nat) (v : Byte) (x : Nat) :
    readByte (writeByte m a v) x = if a = x then v else readByte m x := by
  induction m generalizing lo with
  | nil => by_cases hv : v = unlistedByte <;> simp [writeByte, hv, readByte]
  | cons kb m ih =>
    obtain ⟨k, b⟩ := kb
    simp only [wfAbove, Bool.and_eq_true, decide_eq_true_eq] at h
    obtain ⟨⟨⟨_, _⟩, _⟩, ht⟩ := h
    unfold writeByte
    by_cases h1 : a < k
    · rw [if_pos h1]
      by_cases hv : v = unlistedByte
      · rw [if_pos hv]
        by_cases hx : a = x
        · subst hx
          have hk : k ≠ a := by omega
          simp only [readByte, if_neg hk, if_true]
          rw [readByte_below ht (by omega), hv]
        · rw [if_neg hx]
      · simp only [if_neg hv, readByte]
    · rw [if_neg h1]
      by_cases h2 : a = k
      · subst h2
        rw [if_pos rfl]
        by_cases hv : v = unlistedByte
        · rw [if_pos hv]
          by_cases hx : a = x
          · subst hx
            rw [if_pos rfl, readByte_below ht (by omega), hv]
          · simp only [readByte, if_neg hx]
        · by_cases hx : a = x <;> simp only [if_neg hv, readByte, hx, if_true, if_false]
      · rw [if_neg h2]
        by_cases hx : k = x
        · subst hx
          simp only [readByte, if_true, if_neg h2]
        · simp only [readByte, if_neg hx]
          exact ih ht

/-- A write of one byte keeps the canonical form. -/
theorem wfAbove_writeByte {lo : Nat} {m : Memory} (h : wfAbove lo m = true) {a : Nat} (hlo : lo ≤ a) (ha : a < 2 ^ 64)
    (v : Byte) : wfAbove lo (writeByte m a v) = true := by
  induction m generalizing lo with
  | nil =>
    by_cases hv : v = unlistedByte
    · simp [writeByte, hv, wfAbove]
    · simp only [writeByte, if_neg hv, wfAbove, Bool.and_eq_true, decide_eq_true_eq, bne_iff_ne]
      exact ⟨⟨⟨hlo, ha⟩, hv⟩, trivial⟩
  | cons kb m ih =>
    obtain ⟨k, b⟩ := kb
    simp only [wfAbove, Bool.and_eq_true, decide_eq_true_eq, bne_iff_ne] at h
    obtain ⟨⟨⟨hk, hk'⟩, hb⟩, ht⟩ := h
    unfold writeByte
    by_cases h1 : a < k
    · rw [if_pos h1]
      by_cases hv : v = unlistedByte
      · simp only [if_pos hv, wfAbove, Bool.and_eq_true, decide_eq_true_eq, bne_iff_ne]
        exact ⟨⟨⟨hk, hk'⟩, hb⟩, ht⟩
      · simp only [if_neg hv, wfAbove, Bool.and_eq_true, decide_eq_true_eq, bne_iff_ne]
        exact ⟨⟨⟨hlo, ha⟩, hv⟩, ⟨⟨⟨h1, hk'⟩, hb⟩, ht⟩⟩
    · rw [if_neg h1]
      by_cases h2 : a = k
      · rw [if_pos h2]
        by_cases hv : v = unlistedByte
        · rw [if_pos hv]
          exact wfAbove_mono ht (by omega)
        · subst h2
          simp only [if_neg hv, wfAbove, Bool.and_eq_true, decide_eq_true_eq, bne_iff_ne]
          exact ⟨⟨⟨hlo, ha⟩, hv⟩, ht⟩
      · rw [if_neg h2]
        simp only [wfAbove, Bool.and_eq_true, decide_eq_true_eq, bne_iff_ne]
        exact ⟨⟨⟨hk, hk'⟩, hb⟩, ih ht (by omega)⟩

/-- A write of one byte keeps the canonical form of the whole memory. -/
theorem memoryWf_writeByte {m : Memory} (h : memoryWf m = true) (a : Limb) (v : Byte) :
    memoryWf (writeByte m a.toNat v) = true :=
  wfAbove_writeByte h (Nat.zero_le _) a.isLt v

/-- A write of bytes keeps the canonical form of the whole memory. -/
theorem memoryWf_writeBytes {m : Memory} (h : memoryWf m = true) (a : Limb) (bs : List Byte) :
    memoryWf (writeBytes m a bs) = true := by
  induction bs generalizing m a with
  | nil => exact h
  | cons b bs ih => exact ih (memoryWf_writeByte h a b) (a + 1)

/-- Writing what other agents wrote keeps the canonical form of the whole memory. -/
theorem memoryWf_foldr {m : Memory} (h : memoryWf m = true) (f : Limb × Byte → Byte) (ws : List (Limb × Byte)) :
    memoryWf (ws.foldr (fun w m => writeByte m w.1.toNat (f w)) m) = true := by
  induction ws with
  | nil => exact h
  | cons w ws ih => exact memoryWf_writeByte ih w.1 (f w)

/-- An address in the range is its start plus an offset below the length. -/
theorem inRange_iff (a : Limb) (n : Nat) (x : Limb) : inRange a n x = true ↔ ∃ i, i < n ∧ byteAddr a i = x := by
  simp only [inRange, decide_eq_true_eq, byteAddr]
  constructor
  · intro h
    refine ⟨(x - a).toNat, h, ?_⟩
    rw [BitVec.ofNat_toNat, BitVec.setWidth_eq]
    ring
  · rintro ⟨i, hi, rfl⟩
    have h : a + BitVec.ofNat 64 i - a = BitVec.ofNat 64 i := by ring
    rw [h, BitVec.toNat_ofNat]
    exact lt_of_le_of_lt (Nat.mod_le _ _) hi

@[simp] theorem byteAddr_zero (a : Limb) : byteAddr a 0 = a := by simp [byteAddr]

theorem byteAddr_succ (a : Limb) (i : Nat) : byteAddr (a + 1) i = byteAddr a (i + 1) := by
  have h : BitVec.ofNat 64 (i + 1) = 1 + BitVec.ofNat 64 i := by rw [BitVec.ofNat_add, BitVec.add_comm]; rfl
  rw [byteAddr, byteAddr, h, BitVec.add_assoc]

/-- Everything a write of fewer than 2^64 bytes does to a read: a byte of the range reads as the byte stored there, and
every other byte reads as before. -/
theorem readByte_writeBytes {m : Memory} (h : memoryWf m = true) (a : Limb) (bs : List Byte) (hn : bs.length ≤ 2 ^ 64)
    (x : Limb) :
    readByte (writeBytes m a bs) x.toNat =
      if h : (x - a).toNat < bs.length then bs[(x - a).toNat] else readByte m x.toNat := by
  induction bs generalizing m a with
  | nil => simp [writeBytes]
  | cons b bs ih =>
    have hlen : bs.length + 1 ≤ 2 ^ 64 := by simpa using hn
    rw [writeBytes, ih (memoryWf_writeByte h a b) (a + 1) (by omega)]
    by_cases hx : x = a
    · subst hx
      have h0 : (x - (x + 1)).toNat = 2 ^ 64 - 1 := by
        have : x - (x + 1) = -1 := by ring
        rw [this]; rfl
      rw [dif_neg (by omega), readByte_writeByte (lo := 0) h, if_pos rfl]
      simp
    · have hne : a.toNat ≠ x.toNat := fun e => hx (BitVec.eq_of_toNat_eq e).symm
      have h1 : (x - a).toNat = (x - (a + 1)).toNat + 1 := by bv_omega
      simp only [h1, List.length_cons, Nat.add_lt_add_iff_right, List.getElem_cons_succ]
      split
      · rfl
      · rw [readByte_writeByte (lo := 0) h, if_neg hne]

end Sys2Proof.Machine
end

