-- ==== Sys2Proof/Laws/State.lean ====
section
/-! SUPPORT. One lemma per field per named update of the state, each true by unfolding the update once. -/

namespace Sys2Proof.Machine

section endCommand
@[simp] theorem State.endCommand_addr (code : ErrCode) (op : Byte) (s : State) : (s.endCommand code op).addr = s.addr := rfl
@[simp] theorem State.endCommand_len (code : ErrCode) (op : Byte) (s : State) : (s.endCommand code op).len = s.len := rfl
@[simp] theorem State.endCommand_opaLo (code : ErrCode) (op : Byte) (s : State) : (s.endCommand code op).opaLo = s.opaLo := rfl
@[simp] theorem State.endCommand_opaHi (code : ErrCode) (op : Byte) (s : State) : (s.endCommand code op).opaHi = s.opaHi := rfl
@[simp] theorem State.endCommand_opbLo (code : ErrCode) (op : Byte) (s : State) : (s.endCommand code op).opbLo = s.opbLo := rfl
@[simp] theorem State.endCommand_opbHi (code : ErrCode) (op : Byte) (s : State) : (s.endCommand code op).opbHi = s.opbHi := rfl
@[simp] theorem State.endCommand_resLo (code : ErrCode) (op : Byte) (s : State) : (s.endCommand code op).resLo = s.resLo := rfl
@[simp] theorem State.endCommand_resHi (code : ErrCode) (op : Byte) (s : State) : (s.endCommand code op).resHi = s.resHi := rfl
@[simp] theorem State.endCommand_ef (code : ErrCode) (op : Byte) (s : State) : (s.endCommand code op).ef = efAfter s.ef code := rfl
@[simp] theorem State.endCommand_err (code : ErrCode) (op : Byte) (s : State) : (s.endCommand code op).err = code := rfl
@[simp] theorem State.endCommand_lastOp (code : ErrCode) (op : Byte) (s : State) : (s.endCommand code op).lastOp = op := rfl
@[simp] theorem State.endCommand_capClmul (code : ErrCode) (op : Byte) (s : State) : (s.endCommand code op).capClmul = s.capClmul := rfl
@[simp] theorem State.endCommand_capXor3 (code : ErrCode) (op : Byte) (s : State) : (s.endCommand code op).capXor3 = s.capXor3 := rfl
@[simp] theorem State.endCommand_be (code : ErrCode) (op : Byte) (s : State) : (s.endCommand code op).be = s.be := rfl
@[simp] theorem State.endCommand_kv (code : ErrCode) (op : Byte) (s : State) : (s.endCommand code op).kv = s.kv := rfl
@[simp] theorem State.endCommand_hKey (code : ErrCode) (op : Byte) (s : State) : (s.endCommand code op).hKey = s.hKey := rfl
@[simp] theorem State.endCommand_pow (code : ErrCode) (op : Byte) (s : State) : (s.endCommand code op).pow = s.pow := rfl
@[simp] theorem State.endCommand_hashState (code : ErrCode) (op : Byte) (s : State) : (s.endCommand code op).hashState = s.hashState := rfl
@[simp] theorem State.endCommand_mem (code : ErrCode) (op : Byte) (s : State) : (s.endCommand code op).mem = s.mem := rfl
@[simp] theorem State.endCommand_refused (code : ErrCode) (op : Byte) (s : State) : (s.endCommand code op).refused = s.refused := rfl
@[simp] theorem State.endCommand_inputs (code : ErrCode) (op : Byte) (s : State) : (s.endCommand code op).inputs = s.inputs := rfl
@[simp] theorem State.endCommand_hostWord (code : ErrCode) (op : Byte) (s : State) : (s.endCommand code op).hostWord = s.hostWord := rfl
@[simp] theorem State.endCommand_hostByte (code : ErrCode) (op : Byte) (s : State) : (s.endCommand code op).hostByte = s.hostByte := rfl
@[simp] theorem State.endCommand_racing (code : ErrCode) (op : Byte) (s : State) : (s.endCommand code op).racing = s.racing := rfl
@[simp] theorem State.endCommand_draw (code : ErrCode) (op : Byte) (s : State) : (s.endCommand code op).draw = s.draw := rfl
end endCommand

section setRes
@[simp] theorem State.setRes_addr (r : FieldElement) (s : State) : (s.setRes r).addr = s.addr := rfl
@[simp] theorem State.setRes_len (r : FieldElement) (s : State) : (s.setRes r).len = s.len := rfl
@[simp] theorem State.setRes_opaLo (r : FieldElement) (s : State) : (s.setRes r).opaLo = s.opaLo := rfl
@[simp] theorem State.setRes_opaHi (r : FieldElement) (s : State) : (s.setRes r).opaHi = s.opaHi := rfl
@[simp] theorem State.setRes_opbLo (r : FieldElement) (s : State) : (s.setRes r).opbLo = s.opbLo := rfl
@[simp] theorem State.setRes_opbHi (r : FieldElement) (s : State) : (s.setRes r).opbHi = s.opbHi := rfl
@[simp] theorem State.setRes_resLo (r : FieldElement) (s : State) : (s.setRes r).resLo = lo r := rfl
@[simp] theorem State.setRes_resHi (r : FieldElement) (s : State) : (s.setRes r).resHi = hi r := rfl
@[simp] theorem State.setRes_ef (r : FieldElement) (s : State) : (s.setRes r).ef = s.ef := rfl
@[simp] theorem State.setRes_err (r : FieldElement) (s : State) : (s.setRes r).err = s.err := rfl
@[simp] theorem State.setRes_lastOp (r : FieldElement) (s : State) : (s.setRes r).lastOp = s.lastOp := rfl
@[simp] theorem State.setRes_capClmul (r : FieldElement) (s : State) : (s.setRes r).capClmul = s.capClmul := rfl
@[simp] theorem State.setRes_capXor3 (r : FieldElement) (s : State) : (s.setRes r).capXor3 = s.capXor3 := rfl
@[simp] theorem State.setRes_be (r : FieldElement) (s : State) : (s.setRes r).be = s.be := rfl
@[simp] theorem State.setRes_kv (r : FieldElement) (s : State) : (s.setRes r).kv = s.kv := rfl
@[simp] theorem State.setRes_hKey (r : FieldElement) (s : State) : (s.setRes r).hKey = s.hKey := rfl
@[simp] theorem State.setRes_pow (r : FieldElement) (s : State) : (s.setRes r).pow = s.pow := rfl
@[simp] theorem State.setRes_hashState (r : FieldElement) (s : State) : (s.setRes r).hashState = s.hashState := rfl
@[simp] theorem State.setRes_mem (r : FieldElement) (s : State) : (s.setRes r).mem = s.mem := rfl
@[simp] theorem State.setRes_refused (r : FieldElement) (s : State) : (s.setRes r).refused = s.refused := rfl
@[simp] theorem State.setRes_inputs (r : FieldElement) (s : State) : (s.setRes r).inputs = s.inputs := rfl
@[simp] theorem State.setRes_hostWord (r : FieldElement) (s : State) : (s.setRes r).hostWord = s.hostWord := rfl
@[simp] theorem State.setRes_hostByte (r : FieldElement) (s : State) : (s.setRes r).hostByte = s.hostByte := rfl
@[simp] theorem State.setRes_racing (r : FieldElement) (s : State) : (s.setRes r).racing = s.racing := rfl
@[simp] theorem State.setRes_draw (r : FieldElement) (s : State) : (s.setRes r).draw = s.draw := rfl
end setRes

section setHash
@[simp] theorem State.setHash_addr (v : FieldElement) (s : State) : (s.setHash v).addr = s.addr := rfl
@[simp] theorem State.setHash_len (v : FieldElement) (s : State) : (s.setHash v).len = s.len := rfl
@[simp] theorem State.setHash_opaLo (v : FieldElement) (s : State) : (s.setHash v).opaLo = s.opaLo := rfl
@[simp] theorem State.setHash_opaHi (v : FieldElement) (s : State) : (s.setHash v).opaHi = s.opaHi := rfl
@[simp] theorem State.setHash_opbLo (v : FieldElement) (s : State) : (s.setHash v).opbLo = s.opbLo := rfl
@[simp] theorem State.setHash_opbHi (v : FieldElement) (s : State) : (s.setHash v).opbHi = s.opbHi := rfl
@[simp] theorem State.setHash_resLo (v : FieldElement) (s : State) : (s.setHash v).resLo = s.resLo := rfl
@[simp] theorem State.setHash_resHi (v : FieldElement) (s : State) : (s.setHash v).resHi = s.resHi := rfl
@[simp] theorem State.setHash_ef (v : FieldElement) (s : State) : (s.setHash v).ef = s.ef := rfl
@[simp] theorem State.setHash_err (v : FieldElement) (s : State) : (s.setHash v).err = s.err := rfl
@[simp] theorem State.setHash_lastOp (v : FieldElement) (s : State) : (s.setHash v).lastOp = s.lastOp := rfl
@[simp] theorem State.setHash_capClmul (v : FieldElement) (s : State) : (s.setHash v).capClmul = s.capClmul := rfl
@[simp] theorem State.setHash_capXor3 (v : FieldElement) (s : State) : (s.setHash v).capXor3 = s.capXor3 := rfl
@[simp] theorem State.setHash_be (v : FieldElement) (s : State) : (s.setHash v).be = s.be := rfl
@[simp] theorem State.setHash_kv (v : FieldElement) (s : State) : (s.setHash v).kv = s.kv := rfl
@[simp] theorem State.setHash_hKey (v : FieldElement) (s : State) : (s.setHash v).hKey = s.hKey := rfl
@[simp] theorem State.setHash_pow (v : FieldElement) (s : State) : (s.setHash v).pow = s.pow := rfl
@[simp] theorem State.setHash_hashState (v : FieldElement) (s : State) : (s.setHash v).hashState = v := rfl
@[simp] theorem State.setHash_mem (v : FieldElement) (s : State) : (s.setHash v).mem = s.mem := rfl
@[simp] theorem State.setHash_refused (v : FieldElement) (s : State) : (s.setHash v).refused = s.refused := rfl
@[simp] theorem State.setHash_inputs (v : FieldElement) (s : State) : (s.setHash v).inputs = s.inputs := rfl
@[simp] theorem State.setHash_hostWord (v : FieldElement) (s : State) : (s.setHash v).hostWord = s.hostWord := rfl
@[simp] theorem State.setHash_hostByte (v : FieldElement) (s : State) : (s.setHash v).hostByte = s.hostByte := rfl
@[simp] theorem State.setHash_racing (v : FieldElement) (s : State) : (s.setHash v).racing = s.racing := rfl
@[simp] theorem State.setHash_draw (v : FieldElement) (s : State) : (s.setHash v).draw = s.draw := rfl
end setHash

section setContext
@[simp] theorem State.setContext_addr (h : FieldElement) (p : KeyPowers) (v : FieldElement) (s : State) : (s.setContext h p v).addr = s.addr := rfl
@[simp] theorem State.setContext_len (h : FieldElement) (p : KeyPowers) (v : FieldElement) (s : State) : (s.setContext h p v).len = s.len := rfl
@[simp] theorem State.setContext_opaLo (h : FieldElement) (p : KeyPowers) (v : FieldElement) (s : State) : (s.setContext h p v).opaLo = s.opaLo := rfl
@[simp] theorem State.setContext_opaHi (h : FieldElement) (p : KeyPowers) (v : FieldElement) (s : State) : (s.setContext h p v).opaHi = s.opaHi := rfl
@[simp] theorem State.setContext_opbLo (h : FieldElement) (p : KeyPowers) (v : FieldElement) (s : State) : (s.setContext h p v).opbLo = s.opbLo := rfl
@[simp] theorem State.setContext_opbHi (h : FieldElement) (p : KeyPowers) (v : FieldElement) (s : State) : (s.setContext h p v).opbHi = s.opbHi := rfl
@[simp] theorem State.setContext_resLo (h : FieldElement) (p : KeyPowers) (v : FieldElement) (s : State) : (s.setContext h p v).resLo = s.resLo := rfl
@[simp] theorem State.setContext_resHi (h : FieldElement) (p : KeyPowers) (v : FieldElement) (s : State) : (s.setContext h p v).resHi = s.resHi := rfl
@[simp] theorem State.setContext_ef (h : FieldElement) (p : KeyPowers) (v : FieldElement) (s : State) : (s.setContext h p v).ef = s.ef := rfl
@[simp] theorem State.setContext_err (h : FieldElement) (p : KeyPowers) (v : FieldElement) (s : State) : (s.setContext h p v).err = s.err := rfl
@[simp] theorem State.setContext_lastOp (h : FieldElement) (p : KeyPowers) (v : FieldElement) (s : State) : (s.setContext h p v).lastOp = s.lastOp := rfl
@[simp] theorem State.setContext_capClmul (h : FieldElement) (p : KeyPowers) (v : FieldElement) (s : State) : (s.setContext h p v).capClmul = s.capClmul := rfl
@[simp] theorem State.setContext_capXor3 (h : FieldElement) (p : KeyPowers) (v : FieldElement) (s : State) : (s.setContext h p v).capXor3 = s.capXor3 := rfl
@[simp] theorem State.setContext_be (h : FieldElement) (p : KeyPowers) (v : FieldElement) (s : State) : (s.setContext h p v).be = s.be := rfl
@[simp] theorem State.setContext_kv (h : FieldElement) (p : KeyPowers) (v : FieldElement) (s : State) : (s.setContext h p v).kv = true := rfl
@[simp] theorem State.setContext_hKey (h : FieldElement) (p : KeyPowers) (v : FieldElement) (s : State) : (s.setContext h p v).hKey = h := rfl
@[simp] theorem State.setContext_pow (h : FieldElement) (p : KeyPowers) (v : FieldElement) (s : State) : (s.setContext h p v).pow = p := rfl
@[simp] theorem State.setContext_hashState (h : FieldElement) (p : KeyPowers) (v : FieldElement) (s : State) : (s.setContext h p v).hashState = v := rfl
@[simp] theorem State.setContext_mem (h : FieldElement) (p : KeyPowers) (v : FieldElement) (s : State) : (s.setContext h p v).mem = s.mem := rfl
@[simp] theorem State.setContext_refused (h : FieldElement) (p : KeyPowers) (v : FieldElement) (s : State) : (s.setContext h p v).refused = s.refused := rfl
@[simp] theorem State.setContext_inputs (h : FieldElement) (p : KeyPowers) (v : FieldElement) (s : State) : (s.setContext h p v).inputs = s.inputs := rfl
@[simp] theorem State.setContext_hostWord (h : FieldElement) (p : KeyPowers) (v : FieldElement) (s : State) : (s.setContext h p v).hostWord = s.hostWord := rfl
@[simp] theorem State.setContext_hostByte (h : FieldElement) (p : KeyPowers) (v : FieldElement) (s : State) : (s.setContext h p v).hostByte = s.hostByte := rfl
@[simp] theorem State.setContext_racing (h : FieldElement) (p : KeyPowers) (v : FieldElement) (s : State) : (s.setContext h p v).racing = s.racing := rfl
@[simp] theorem State.setContext_draw (h : FieldElement) (p : KeyPowers) (v : FieldElement) (s : State) : (s.setContext h p v).draw = s.draw := rfl
end setContext

section memWrite
@[simp] theorem State.memWrite_addr (a : Limb) (bs : List Byte) (s : State) : (s.memWrite a bs).addr = s.addr := rfl
@[simp] theorem State.memWrite_len (a : Limb) (bs : List Byte) (s : State) : (s.memWrite a bs).len = s.len := rfl
@[simp] theorem State.memWrite_opaLo (a : Limb) (bs : List Byte) (s : State) : (s.memWrite a bs).opaLo = s.opaLo := rfl
@[simp] theorem State.memWrite_opaHi (a : Limb) (bs : List Byte) (s : State) : (s.memWrite a bs).opaHi = s.opaHi := rfl
@[simp] theorem State.memWrite_opbLo (a : Limb) (bs : List Byte) (s : State) : (s.memWrite a bs).opbLo = s.opbLo := rfl
@[simp] theorem State.memWrite_opbHi (a : Limb) (bs : List Byte) (s : State) : (s.memWrite a bs).opbHi = s.opbHi := rfl
@[simp] theorem State.memWrite_resLo (a : Limb) (bs : List Byte) (s : State) : (s.memWrite a bs).resLo = s.resLo := rfl
@[simp] theorem State.memWrite_resHi (a : Limb) (bs : List Byte) (s : State) : (s.memWrite a bs).resHi = s.resHi := rfl
@[simp] theorem State.memWrite_ef (a : Limb) (bs : List Byte) (s : State) : (s.memWrite a bs).ef = s.ef := rfl
@[simp] theorem State.memWrite_err (a : Limb) (bs : List Byte) (s : State) : (s.memWrite a bs).err = s.err := rfl
@[simp] theorem State.memWrite_lastOp (a : Limb) (bs : List Byte) (s : State) : (s.memWrite a bs).lastOp = s.lastOp := rfl
@[simp] theorem State.memWrite_capClmul (a : Limb) (bs : List Byte) (s : State) : (s.memWrite a bs).capClmul = s.capClmul := rfl
@[simp] theorem State.memWrite_capXor3 (a : Limb) (bs : List Byte) (s : State) : (s.memWrite a bs).capXor3 = s.capXor3 := rfl
@[simp] theorem State.memWrite_be (a : Limb) (bs : List Byte) (s : State) : (s.memWrite a bs).be = s.be := rfl
@[simp] theorem State.memWrite_kv (a : Limb) (bs : List Byte) (s : State) : (s.memWrite a bs).kv = s.kv := rfl
@[simp] theorem State.memWrite_hKey (a : Limb) (bs : List Byte) (s : State) : (s.memWrite a bs).hKey = s.hKey := rfl
@[simp] theorem State.memWrite_pow (a : Limb) (bs : List Byte) (s : State) : (s.memWrite a bs).pow = s.pow := rfl
@[simp] theorem State.memWrite_hashState (a : Limb) (bs : List Byte) (s : State) : (s.memWrite a bs).hashState = s.hashState := rfl
@[simp] theorem State.memWrite_mem (a : Limb) (bs : List Byte) (s : State) : (s.memWrite a bs).mem = writeBytes s.mem a bs := rfl
@[simp] theorem State.memWrite_refused (a : Limb) (bs : List Byte) (s : State) : (s.memWrite a bs).refused = s.refused := rfl
@[simp] theorem State.memWrite_inputs (a : Limb) (bs : List Byte) (s : State) : (s.memWrite a bs).inputs = s.inputs := rfl
@[simp] theorem State.memWrite_hostWord (a : Limb) (bs : List Byte) (s : State) : (s.memWrite a bs).hostWord = s.hostWord := rfl
@[simp] theorem State.memWrite_hostByte (a : Limb) (bs : List Byte) (s : State) : (s.memWrite a bs).hostByte = s.hostByte := rfl
@[simp] theorem State.memWrite_racing (a : Limb) (bs : List Byte) (s : State) : (s.memWrite a bs).racing = s.racing := rfl
@[simp] theorem State.memWrite_draw (a : Limb) (bs : List Byte) (s : State) : (s.memWrite a bs).draw = s.draw := rfl
end memWrite

section powerOn
@[simp] theorem State.powerOn_addr (c x : Bool) (s : State) : (s.powerOn c x).addr = 0 := rfl
@[simp] theorem State.powerOn_len (c x : Bool) (s : State) : (s.powerOn c x).len = 0 := rfl
@[simp] theorem State.powerOn_opaLo (c x : Bool) (s : State) : (s.powerOn c x).opaLo = 0 := rfl
@[simp] theorem State.powerOn_opaHi (c x : Bool) (s : State) : (s.powerOn c x).opaHi = 0 := rfl
@[simp] theorem State.powerOn_opbLo (c x : Bool) (s : State) : (s.powerOn c x).opbLo = 0 := rfl
@[simp] theorem State.powerOn_opbHi (c x : Bool) (s : State) : (s.powerOn c x).opbHi = 0 := rfl
@[simp] theorem State.powerOn_resLo (c x : Bool) (s : State) : (s.powerOn c x).resLo = 0 := rfl
@[simp] theorem State.powerOn_resHi (c x : Bool) (s : State) : (s.powerOn c x).resHi = 0 := rfl
@[simp] theorem State.powerOn_ef (c x : Bool) (s : State) : (s.powerOn c x).ef = false := rfl
@[simp] theorem State.powerOn_err (c x : Bool) (s : State) : (s.powerOn c x).err = .ok := rfl
@[simp] theorem State.powerOn_lastOp (c x : Bool) (s : State) : (s.powerOn c x).lastOp = 0 := rfl
@[simp] theorem State.powerOn_capClmul (c x : Bool) (s : State) : (s.powerOn c x).capClmul = c := rfl
@[simp] theorem State.powerOn_capXor3 (c x : Bool) (s : State) : (s.powerOn c x).capXor3 = x := rfl
@[simp] theorem State.powerOn_be (c x : Bool) (s : State) : (s.powerOn c x).be = selectBackend c x := rfl
@[simp] theorem State.powerOn_kv (c x : Bool) (s : State) : (s.powerOn c x).kv = false := rfl
@[simp] theorem State.powerOn_hKey (c x : Bool) (s : State) : (s.powerOn c x).hKey = 0 := rfl
@[simp] theorem State.powerOn_pow (c x : Bool) (s : State) : (s.powerOn c x).pow = ⟨0, 0, 0, 0, 0, 0, 0, 0⟩ := rfl
@[simp] theorem State.powerOn_hashState (c x : Bool) (s : State) : (s.powerOn c x).hashState = 0 := rfl
@[simp] theorem State.powerOn_mem (c x : Bool) (s : State) : (s.powerOn c x).mem = s.mem := rfl
@[simp] theorem State.powerOn_refused (c x : Bool) (s : State) : (s.powerOn c x).refused = s.refused := rfl
@[simp] theorem State.powerOn_inputs (c x : Bool) (s : State) : (s.powerOn c x).inputs = s.inputs := rfl
@[simp] theorem State.powerOn_hostWord (c x : Bool) (s : State) : (s.powerOn c x).hostWord = s.hostWord := rfl
@[simp] theorem State.powerOn_hostByte (c x : Bool) (s : State) : (s.powerOn c x).hostByte = s.hostByte := rfl
@[simp] theorem State.powerOn_racing (c x : Bool) (s : State) : (s.powerOn c x).racing = s.racing := rfl
@[simp] theorem State.powerOn_draw (c x : Bool) (s : State) : (s.powerOn c x).draw = s.draw := rfl
end powerOn

section settleRaces
@[simp] theorem State.settleRaces_addr (a : Option Access) (s : State) : (s.settleRaces a).addr = s.addr := rfl
@[simp] theorem State.settleRaces_len (a : Option Access) (s : State) : (s.settleRaces a).len = s.len := rfl
@[simp] theorem State.settleRaces_opaLo (a : Option Access) (s : State) : (s.settleRaces a).opaLo = s.opaLo := rfl
@[simp] theorem State.settleRaces_opaHi (a : Option Access) (s : State) : (s.settleRaces a).opaHi = s.opaHi := rfl
@[simp] theorem State.settleRaces_opbLo (a : Option Access) (s : State) : (s.settleRaces a).opbLo = s.opbLo := rfl
@[simp] theorem State.settleRaces_opbHi (a : Option Access) (s : State) : (s.settleRaces a).opbHi = s.opbHi := rfl
@[simp] theorem State.settleRaces_resLo (a : Option Access) (s : State) : (s.settleRaces a).resLo = s.resLo := rfl
@[simp] theorem State.settleRaces_resHi (a : Option Access) (s : State) : (s.settleRaces a).resHi = s.resHi := rfl
@[simp] theorem State.settleRaces_ef (a : Option Access) (s : State) : (s.settleRaces a).ef = s.ef := rfl
@[simp] theorem State.settleRaces_err (a : Option Access) (s : State) : (s.settleRaces a).err = s.err := rfl
@[simp] theorem State.settleRaces_lastOp (a : Option Access) (s : State) : (s.settleRaces a).lastOp = s.lastOp := rfl
@[simp] theorem State.settleRaces_capClmul (a : Option Access) (s : State) : (s.settleRaces a).capClmul = s.capClmul := rfl
@[simp] theorem State.settleRaces_capXor3 (a : Option Access) (s : State) : (s.settleRaces a).capXor3 = s.capXor3 := rfl
@[simp] theorem State.settleRaces_be (a : Option Access) (s : State) : (s.settleRaces a).be = s.be := rfl
@[simp] theorem State.settleRaces_kv (a : Option Access) (s : State) : (s.settleRaces a).kv = s.kv := rfl
@[simp] theorem State.settleRaces_hKey (a : Option Access) (s : State) : (s.settleRaces a).hKey = s.hKey := rfl
@[simp] theorem State.settleRaces_pow (a : Option Access) (s : State) : (s.settleRaces a).pow = s.pow := rfl
@[simp] theorem State.settleRaces_hashState (a : Option Access) (s : State) : (s.settleRaces a).hashState = s.hashState := rfl
@[simp] theorem State.settleRaces_refused (a : Option Access) (s : State) : (s.settleRaces a).refused = s.refused := rfl
@[simp] theorem State.settleRaces_inputs (a : Option Access) (s : State) : (s.settleRaces a).inputs = s.inputs := rfl
@[simp] theorem State.settleRaces_hostWord (a : Option Access) (s : State) : (s.settleRaces a).hostWord = s.hostWord := rfl
@[simp] theorem State.settleRaces_hostByte (a : Option Access) (s : State) : (s.settleRaces a).hostByte = s.hostByte := rfl
@[simp] theorem State.settleRaces_racing (a : Option Access) (s : State) : (s.settleRaces a).racing = [] := rfl
@[simp] theorem State.settleRaces_draw (a : Option Access) (s : State) : (s.settleRaces a).draw = s.draw := rfl
end settleRaces

end Sys2Proof.Machine
end

