-- ==== Sys2Proof/Laws/Ops.lean ====
section
/-! SUPPORT. What each shared operation can do, said once; the meanings' proofs cite these instead of unfolding it. -/

namespace Sys2Proof.Machine

/-- How admission is decided. -/
theorem State.memAdmits_iff (s : State) (a : Limb) (n : Nat) : s.memAdmits a n = true ↔ (a, n) ∉ s.refused := by
  simp [State.memAdmits]

/-- An admitted range: the command goes on. -/
theorem State.withRange_admitted {s : State} {n : Nat} (h : s.memAdmits s.addr n = true)
    (k : Host.Outcome State Fault Refusal) : s.withRange n k = k := by
  simp [State.withRange, h]

/-- A range that is not admitted: the command has no step. -/
theorem State.withRange_refused {s : State} {n : Nat} (h : s.memAdmits s.addr n = false)
    (k : Host.Outcome State Fault Refusal) : s.withRange n k = .fault (.rangeNotAdmitted s.addr n) := by
  simp [State.withRange, h]

/-- If the check of a range answers a next state, the range is admitted and the command's rest answered it. -/
theorem State.withRange_next {s t : State} {n : Nat} {k : Host.Outcome State Fault Refusal}
    (h : s.withRange n k = .next t) : s.memAdmits s.addr n = true ∧ k = .next t := by
  unfold State.withRange at h
  split at h
  · exact ⟨‹_›, h⟩
  · cases h

/-- A command that completes changes STATUS as R26 says. -/
theorem State.complete_eq (op : Byte) (s : State) : s.complete op = .next (s.endCommand .ok op) := rfl

/-- A command that errs changes STATUS as R26 says, and nothing else. -/
theorem State.raiseError_eq (code : ErrCode) (op : Byte) (s : State) :
    s.raiseError code op = .next (s.endCommand code op) := rfl

@[simp] theorem efAfter_ok (ef : Bool) : efAfter ef .ok = ef := by simp [efAfter]

theorem efAfter_error {code : ErrCode} (h : code ≠ .ok) (ef : Bool) : efAfter ef code = true := by
  simp [efAfter, h]

/-- The sticky flag is never cleared by a command. -/
theorem efAfter_sticky {ef : Bool} (h : ef = true) (code : ErrCode) : efAfter ef code = true := by
  simp [efAfter, h]

/-- With no race pending, the core's access sees the memory's byte. -/
theorem State.coreByte_quiet {s : State} (h : s.racing = []) (a : Limb) : s.coreByte a = readByte s.mem a.toNat := by
  simp [State.coreByte, State.raced, h]

/-- A core read depends on the bytes of its range alone. -/
theorem State.memRead_congr {s t : State} {a : Limb} {n : Nat}
    (h : ∀ i < n, s.coreByte (byteAddr a i) = t.coreByte (byteAddr a i)) : s.memRead a n = t.memRead a n := by
  unfold State.memRead rangeAddrs
  rw [List.map_map, List.map_map]
  exact congrArg leValue (List.map_congr_left fun i hi => h i (List.mem_range.1 hi))

/-- A read of an element depends on its 16 bytes alone. -/
theorem State.readElem_congr {s t : State} {a : Limb}
    (h : ∀ i < 16, s.coreByte (byteAddr a i) = t.coreByte (byteAddr a i)) : s.readElem a = t.readElem a := by
  unfold State.readElem
  rw [State.memRead_congr h]

/-- Offsets within a range add. -/
theorem byteAddr_byteAddr (a : Limb) (i j : Nat) : byteAddr (byteAddr a i) j = byteAddr a (i + j) := by
  simp only [byteAddr, BitVec.ofNat_add, BitVec.add_assoc]

/-- A read of blocks depends on the bytes of its range alone. -/
theorem State.readBlocks_congr {s t : State} {a : Limb} {k : Nat}
    (h : ∀ i < 16 * k, s.coreByte (byteAddr a i) = t.coreByte (byteAddr a i)) : s.readBlocks a k = t.readBlocks a k := by
  unfold State.readBlocks
  refine List.map_congr_left fun j hj => State.readElem_congr fun i hi => ?_
  rw [byteAddr_byteAddr]
  exact h _ (by have := List.mem_range.1 hj; omega)

/-- With no race pending, the end of a command settles nothing. -/
theorem State.settleRaces_quiet {s : State} (h : s.racing = []) (access : Option Access) : s.settleRaces access = s := by
  cases s
  cases h
  rfl

/-- The end of a command's races keeps the canonical form of the memory. -/
theorem State.settleRaces_memoryWf {s : State} (h : memoryWf s.mem = true) (access : Option Access) :
    memoryWf (s.settleRaces access).mem = true :=
  memoryWf_foldr h (fun w => racedResult access s.draw w.1 w.2) s.racing

/-- SAVE's write keeps the canonical form of the memory. -/
theorem State.memWrite_memoryWf {s : State} (h : memoryWf s.mem = true) (a : Limb) (bs : List Byte) :
    memoryWf (s.memWrite a bs).mem = true :=
  memoryWf_writeBytes h a bs

/-- If the step around a command answers a next state, the command did, and its races were settled. -/
theorem afterCommand_next {access : Option Access} {o : Host.Outcome State Fault Refusal} {t : State}
    (h : afterCommand access o = .next t) : ∃ u, o = .next u ∧ t = u.settleRaces access := by
  cases o with
  | next u => exact ⟨u, rfl, by simpa [afterCommand] using h.symm⟩
  | fault f => cases h
  | refused r => cases h

/-- A step with no input waits; otherwise it performs the oldest input. -/
theorem step_input {s : State} {op : HostOp} {rest : List HostOp} (h : s.inputs = op :: rest) :
    step s = State.perform op { s with inputs := rest } := by
  simp [step, h]

@[simp] theorem length_leBytes (n v : Nat) : (leBytes n v).length = n := by simp [leBytes]

/-- The state image is 160 bytes (44_context.md R112). -/
theorem length_contextImage (s : State) : (contextImage s).length = 160 := by
  simp [contextImage, KeyPowers.toList]

/-- Bytes laid one after the other. -/
theorem leValue_append (bs cs : List Byte) : leValue (bs ++ cs) = leValue bs + 256 ^ bs.length * leValue cs := by
  induction bs with
  | nil => simp [leValue]
  | cons b bs ih => simp only [List.cons_append, leValue, ih, List.length_cons]; ring

/-- n bytes fit 8·n bits. -/
theorem leValue_lt (bs : List Byte) : leValue bs < 256 ^ bs.length := by
  induction bs with
  | nil => simp [leValue]
  | cons b bs ih =>
    have hb := b.isLt
    simp only [leValue, List.length_cons, pow_succ]
    omega

/-- A read of m + n bytes is a read of m bytes and, above it, of the n bytes after them. -/
theorem State.memRead_add (s : State) (a : Limb) (m n : Nat) :
    s.memRead a (m + n) = s.memRead a m + 256 ^ m * s.memRead (byteAddr a m) n := by
  unfold State.memRead rangeAddrs
  rw [List.range_add, List.map_append, List.map_append, leValue_append]
  simp only [List.length_map, List.length_range, List.map_map]
  congr 3
  refine List.map_congr_left fun i _ => ?_
  simp only [Function.comp, byteAddr_byteAddr]

/-- A read of n bytes fits 8·n bits. -/
theorem State.memRead_lt (s : State) (a : Limb) (n : Nat) : s.memRead a n < 256 ^ n := by
  have h := leValue_lt ((rangeAddrs a n).map s.coreByte)
  rwa [List.length_map, rangeAddrs, List.length_map, List.length_range] at h

end Sys2Proof.Machine
end

