-- ==== Sys2Proof/Laws/Exec.lean ====
section
/-! SUPPORT. What a command that answers a next state can have done, said once: STATUS as R26 says, and one of the shared
writes. Every claim about what commands leave alone follows from it. -/

namespace Sys2Proof.Machine

/-- The part of the state a command may have written, by command; `u` is the state before STATUS is written. -/
def Wrote (i : Instr) (s u : State) : Prop :=
  match i with
  | .setkey | .load => ∃ h p v, u = s.setContext h p v
  | .clear | .update => ∃ v, u = s.setHash v
  | .sum | .clmul00 | .clmul11 | .fmul | .double => ∃ r, u = s.setRes r
  | .save => ∃ a bs, u = s.memWrite a bs

/-- The end of a command: STATUS written with `code`, over an unchanged state if it errs, and over an unchanged state or
the command's own write if it completes. -/
def Ended (i : Instr) (s t : State) : Prop :=
  ∃ code u, t = u.endCommand code (opcodeOf i) ∧ (u = s ∨ (code = .ok ∧ Wrote i s u))

theorem Ended.of_error {i : Instr} {s t : State} {code : ErrCode} {op : Byte} (hop : op = opcodeOf i)
    (h : s.raiseError code op = .next t) : Ended i s t := by
  rw [State.raiseError_eq] at h
  injection h with h
  exact ⟨code, s, by rw [← h, hop], .inl rfl⟩

theorem Ended.of_complete {i : Instr} {s u t : State} {op : Byte} (hop : op = opcodeOf i) (hw : u = s ∨ Wrote i s u)
    (h : u.complete op = .next t) : Ended i s t := by
  rw [State.complete_eq] at h
  injection h with h
  exact ⟨.ok, u, by rw [← h, hop], hw.imp_right fun w => ⟨rfl, w⟩⟩

theorem execSetkey_ended {s t : State} (h : execSetkey s = .next t) : Ended .setkey s t := by
  unfold execSetkey at h
  split at h
  · exact .of_error rfl h
  · obtain ⟨_, h⟩ := State.withRange_next h
    split at h
    · exact .of_error rfl h
    · exact .of_complete rfl (.inr ⟨_, _, _, rfl⟩) h

theorem execClear_ended {s t : State} (h : execClear s = .next t) : Ended .clear s t :=
  .of_complete rfl (.inr ⟨_, rfl⟩) h

theorem execUpdate_ended {s t : State} (h : execUpdate s = .next t) : Ended .update s t := by
  unfold execUpdate at h
  split at h
  · exact .of_error rfl h
  split at h
  · exact .of_error rfl h
  split at h
  · exact .of_complete rfl (.inl rfl) h
  · obtain ⟨_, h⟩ := State.withRange_next h
    exact .of_complete rfl (.inr ⟨_, rfl⟩) h

theorem execSum_ended {s t : State} (h : execSum s = .next t) : Ended .sum s t := by
  unfold execSum at h
  split at h
  · exact .of_error rfl h
  · exact .of_complete rfl (.inr ⟨_, rfl⟩) h

theorem execSave_ended {s t : State} (h : execSave s = .next t) : Ended .save s t := by
  unfold execSave at h
  split at h
  · exact .of_error rfl h
  split at h
  · exact .of_error rfl h
  · obtain ⟨_, h⟩ := State.withRange_next h
    exact .of_complete rfl (.inr ⟨_, _, rfl⟩) h

theorem execLoad_ended {s t : State} (h : execLoad s = .next t) : Ended .load s t := by
  unfold execLoad at h
  split at h
  · exact .of_error rfl h
  · obtain ⟨_, h⟩ := State.withRange_next h
    exact .of_complete rfl (.inr ⟨_, _, _, rfl⟩) h

/-- What a command that answers a next state can have done. -/
theorem exec_ended {i : Instr} {s t : State} (h : exec i s = .next t) : Ended i s t := by
  cases i with
  | setkey => exact execSetkey_ended h
  | clear => exact execClear_ended h
  | update => exact execUpdate_ended h
  | sum => exact execSum_ended h
  | save => exact execSave_ended h
  | load => exact execLoad_ended h
  | clmul00 => exact .of_complete rfl (.inr ⟨_, rfl⟩) h
  | clmul11 => exact .of_complete rfl (.inr ⟨_, rfl⟩) h
  | fmul => exact .of_complete rfl (.inr ⟨_, rfl⟩) h
  | double => exact .of_complete rfl (.inr ⟨_, rfl⟩) h

end Sys2Proof.Machine
end

