-- ==== Sys2Proof/Laws/PerInstr.lean ====
section
/-! SUPPORT. What holds of every command as syntax, one lemma per constructor. -/

namespace Sys2Proof.Laws

/-- The value written to CMD for the command has legal fields, and its low byte is the command's opcode
(30_encoding.md R58, R59, R61). -/
def LegalWord.Statement (i : Instr) : Prop :=
  (splitFields (cmdValue i)).wf = true ∧ opcodeByte (cmdValue i) = opcodeOf i

theorem LegalWord.setkey : LegalWord.Statement .setkey := by unfold LegalWord.Statement; decide
theorem LegalWord.clear : LegalWord.Statement .clear := by unfold LegalWord.Statement; decide
theorem LegalWord.update : LegalWord.Statement .update := by unfold LegalWord.Statement; decide
theorem LegalWord.sum : LegalWord.Statement .sum := by unfold LegalWord.Statement; decide
theorem LegalWord.save : LegalWord.Statement .save := by unfold LegalWord.Statement; decide
theorem LegalWord.load : LegalWord.Statement .load := by unfold LegalWord.Statement; decide
theorem LegalWord.clmul00 : LegalWord.Statement .clmul00 := by unfold LegalWord.Statement; decide
theorem LegalWord.clmul11 : LegalWord.Statement .clmul11 := by unfold LegalWord.Statement; decide
theorem LegalWord.fmul : LegalWord.Statement .fmul := by unfold LegalWord.Statement; decide
theorem LegalWord.double : LegalWord.Statement .double := by unfold LegalWord.Statement; decide

end Sys2Proof.Laws
end

