-- ==== Sys2Proof/Laws/Realisations.lean ====
section
/-! SUPPORT. The vector multiplier's choice of lane (log 21) changes no product. -/

namespace Sys2Proof.Machine

/-- The vector multiplier is the reference product (40_clmul.md R70). -/
@[simp] theorem clmulVector_eq_clmul64 (x y : Limb) : clmulVector x y = clmul64 x y := by
  simp [clmulVector, laneMul00]

/-- Lane 1 gives the same product as lane 0. -/
theorem clmulVector_eq_laneMul11 (x y u v : Limb) : clmulVector x y = laneMul11 (limbs x u) (limbs y v) := by
  simp [laneMul11]

end Sys2Proof.Machine
end

