-- ==== Sys2Proof/Machine/AsmText.lean ====
section
/-! DEFINITION. The text of host programs (30_encoding.md R62, R63): one line, given as its characters, read as an
`AsmLine`. What R62 leaves open about spaces is chosen in log 20. -/

namespace Sys2Proof.Machine

/-- The value of a digit, hexadecimal digits in lower case. -/
def digitValue (c : Char) : Option Nat :=
  if '0' ≤ c ∧ c ≤ '9' then some (c.toNat - 48)
  else if 'a' ≤ c ∧ c ≤ 'f' then some (c.toNat - 87)
  else none

/-- The digits of a number in the given base, most significant first, after `acc`. -/
def readDigits (base acc : Nat) : List Char → Option Nat
  | [] => some acc
  | c :: cs =>
    match digitValue c with
    | some d => if d < base then readDigits base (base * acc + d) cs else none
    | none => none

/-- A number of at least one digit. -/
def readNumber (base : Nat) (cs : List Char) : Option Nat := if cs = [] then none else readDigits base 0 cs

/-- A 64-bit immediate: hexadecimal with `0x`, or decimal (R62). -/
def readImm64 (cs : List Char) : Option Limb :=
  let value := match cs with
    | '0' :: 'x' :: ds => readNumber 16 ds
    | ds => readNumber 10 ds
  match value with
  | some n => if n < 2 ^ 64 then some (BitVec.ofNat 64 n) else none
  | none => none

/-- Pairs of hexadecimal digits as bytes, in the order written. -/
def readBytes : List Char → Option (List Byte)
  | [] => some []
  | [_] => none
  | a :: b :: cs =>
    match readDigits 16 0 [a, b], readBytes cs with
    | some v, some bs => some (BitVec.ofNat 8 v :: bs)
    | _, _ => none

/-- A 128-bit immediate: one hexadecimal integer, or `le:` followed by 32 hexadecimal digits (R62). -/
def readImm128 (cs : List Char) : Option FieldElement :=
  match cs with
  | 'l' :: 'e' :: ':' :: ds =>
    match readBytes ds with
    | some bs => if bs.length = 16 then some (leImmediate bs) else none
    | none => none
  | '0' :: 'x' :: ds =>
    match readNumber 16 ds with
    | some n => if n < 2 ^ 128 then some (BitVec.ofNat 128 n) else none
    | none => none
  | _ => none

/-- The words of a line: a space ends a word, a comma is a word of its own. -/
def lineWords (line : List Char) : List (List Char) :=
  (line.foldr (fun c ws =>
    if c = ' ' then [] :: ws
    else if c = ',' then [] :: [','] :: ws
    else match ws with
      | [] => [[c]]
      | w :: rest => (c :: w) :: rest) [[]]).filter (· ≠ [])

/-- The value beside a name in a list of names. -/
def lookupName {α : Type} (name : List Char) : List (List Char × α) → Option α
  | [] => none
  | (n, a) :: rest => if n = name then some a else lookupName name rest

/-- The register names of 10_state.md R21, in lower case. -/
def regNames : List (List Char × RegName) :=
  [(['c', 'm', 'd'], .cmd), (['s', 't', 'a', 't', 'u', 's'], .status), (['a', 'd', 'd', 'r'], .addr), (['l', 'e', 'n'], .len),
    (['o', 'p', 'a', '_', 'l', 'o'], .opaLo), (['o', 'p', 'a', '_', 'h', 'i'], .opaHi), (['o', 'p', 'b', '_', 'l', 'o'], .opbLo),
    (['o', 'p', 'b', '_', 'h', 'i'], .opbHi), (['r', 'e', 's', '_', 'l', 'o'], .resLo), (['r', 'e', 's', '_', 'h', 'i'], .resHi),
    (['c', 'a', 'p'], .cap)]

/-- The command mnemonics of R59, in lower case. -/
def commandNames : List (List Char × Instr) :=
  [(['s', 'e', 't', 'k', 'e', 'y'], .setkey), (['c', 'l', 'e', 'a', 'r'], .clear), (['u', 'p', 'd', 'a', 't', 'e'], .update),
    (['s', 'u', 'm'], .sum), (['s', 'a', 'v', 'e'], .save), (['l', 'o', 'a', 'd'], .load),
    (['c', 'l', 'm', 'u', 'l', '0', '0'], .clmul00), (['c', 'l', 'm', 'u', 'l', '1', '1'], .clmul11),
    (['f', 'm', 'u', 'l'], .fmul), (['d', 'o', 'u', 'b', 'l', 'e'], .double)]

/-- The pseudo-instructions with one address (R63). -/
def rangePseudos : List (List Char × (Limb → AsmLine)) :=
  [(['s', 'e', 't', 'k', 'e', 'y'], .setkeyAt), (['s', 'a', 'v', 'e'], .saveAt), (['l', 'o', 'a', 'd'], .loadAt)]

/-- The operand registers `wr128` writes (R63). -/
def pairWrites : List (List Char × (FieldElement → AsmLine)) := [(['o', 'p', 'a'], .wr128Opa), (['o', 'p', 'b'], .wr128Opb)]

/-- A line of a host program (R62, R63); `none` where it is none. Letters count the same in either case. -/
def parseLine (line : List Char) : Option AsmLine :=
  match lineWords (line.map Char.toLower) with
  | [m] => (lookupName m commandNames).map .command
  | [m, a] =>
    if m = ['r', 'd'] then (lookupName a regNames).map .rd
    else if m = ['r', 'd', '1', '2', '8'] then (if a = ['r', 'e', 's'] then some .rd128Res else none)
    else match lookupName m rangePseudos, readImm64 a with
      | some f, some v => some (f v)
      | _, _ => none
  | [m, a, [','], b] =>
    if m = ['w', 'r'] then
      match lookupName a regNames, readImm64 b with
      | some r, some v => some (.wr r v)
      | _, _ => none
    else if m = ['w', 'r', '1', '2', '8'] then
      match lookupName a pairWrites, readImm128 b with
      | some f, some v => some (f v)
      | _, _ => none
    else if m = ['u', 'p', 'd', 'a', 't', 'e'] then
      match readImm64 a, readImm64 b with
      | some x, some n => some (.updateAt x n)
      | _, _ => none
    else none
  | [m, a, [','], b, [','], c] =>
    if m = ['o', 'n', 'e', 's', 'h', 'o', 't'] then
      match readImm64 a, readImm64 b, readImm64 c with
      | some k, some d, some n => some (.oneShot k d n)
      | _, _, _ => none
    else none
  | _ => none

end Sys2Proof.Machine
end

