-- ==== Sys2Proof/Tests/Slice0.lean ====
section
/-! SUPPORT. Tests of the model against the vectors of spec/95_test_vectors.md and the examples of the rules, and one named
witness for each statement that has hypotheses. -/

namespace Sys2Proof.Tests

open Machine

/-! ### Decoding: the words of 30_encoding.md R59, and the vectors of 95_test_vectors.md section 3 -/

theorem test_decode_setkey : decode 0x0000000000000001 = .ok .setkey := by decide
theorem test_decode_clear : decode 0x0000000000000002 = .ok .clear := by decide
theorem test_decode_update : decode 0x0000000000000003 = .ok .update := by decide
theorem test_decode_sum : decode 0x0000000000000004 = .ok .sum := by decide
theorem test_decode_save : decode 0x0000000000000005 = .ok .save := by decide
theorem test_decode_load : decode 0x0000000000000006 = .ok .load := by decide
theorem test_decode_clmul00 : decode 0x0000000000000010 = .ok .clmul00 := by decide
theorem test_decode_clmul11 : decode 0x0000000000001110 = .ok .clmul11 := by decide
theorem test_decode_fmul : decode 0x0000000000000011 = .ok .fmul := by decide
theorem test_decode_double : decode 0x0000000000000012 = .ok .double := by decide

theorem test_illegal_opcode :
    decode 0x00 = .error .opcode ∧ decode 0x07 = .error .opcode ∧ decode 0x13 = .error .opcode ∧
    decode 0xFF = .error .opcode := by decide
theorem test_illegal_lane : decode 0x0110 = .error .laneSelector ∧ decode 0x1010 = .error .laneSelector := by decide
theorem test_illegal_immediate : decode 0x1111 = .error .immediate ∧ decode 0x0101 = .error .immediate := by decide
theorem test_illegal_reserved : decode 0x80000003 = .error .reservedBits := by decide
theorem test_illegal_upper : decode 0xFFFFFFFF00000003 = .error .upperHalf := by decide

theorem test_encode_words :
    [Instr.setkey, .clear, .update, .sum, .save, .load, .clmul00, .clmul11, .fmul, .double].map encode =
      [0x00000001, 0x00000002, 0x00000003, 0x00000004, 0x00000005, 0x00000006, 0x00000010, 0x00001110, 0x00000011,
        0x00000012] := by decide

theorem test_table_word : decodeTableWord 32 0x1110 = some .clmul11 ∧ decodeTableWord 32 0x1010 = none := by decide

/-! ### WellFormed: an ill-formed term for each check -/

theorem smoke_upperZero : (CmdFields.mk 1 0 0 0x01).upperZero = false ∧ (CmdFields.mk 1 0 0 0x01).wf = false := by decide
theorem smoke_rsvZero : (CmdFields.mk 0 0x8000 0 0x03).rsvZero = false ∧ (CmdFields.mk 0 0x8000 0 0x03).wf = false := by decide
theorem smoke_opcAssigned : (CmdFields.mk 0 0 0 0x07).opcAssigned = false ∧ (CmdFields.mk 0 0 0 0x07).wf = false := by decide
theorem smoke_immLegal_lane : (CmdFields.mk 0 0 0x10 0x10).immLegal = false ∧ (CmdFields.mk 0 0 0x10 0x10).wf = false := by decide
theorem smoke_immLegal_other : (CmdFields.mk 0 0 0x11 0x11).immLegal = false ∧ (CmdFields.mk 0 0 0x11 0x11).wf = false := by decide

/-! ### Host programs as text (30_encoding.md R62, R63) -/

theorem test_parse_wr : parseLine ['W', 'R', ' ', 'o', 'p', 'a', '_', 'l', 'o', ',', ' ', '0', 'x', '1', 'F'] = some (.wr .opaLo 0x1F) := by decide +kernel
theorem test_parse_decimal : parseLine ['u', 'p', 'd', 'a', 't', 'e', ' ', '0', 'x', '2', '0', '0', '0', ',', ' ', '3', '2'] = some (.updateAt 0x2000 32) := by decide +kernel
theorem test_parse_command : parseLine ['C', 'L', 'M', 'U', 'L', '1', '1'] = some (.command .clmul11) := by decide +kernel
theorem test_parse_le :
    readImm128 ['l', 'e', ':', '4', 'f', '4', 'f', '9', '5', '6', '6', '8', 'c', '8', '3', 'd', 'f', 'b', '6', '4', '0', '1', '7', '6', '2', 'b', 'b', '2', 'd', '0', '1', 'a', '2', '6', '2']
      = some 0x62A2012DBB621740B6DF838C66954F4F := by decide +kernel

/-! ### Helpers -/

/-- The state after a power-on reset with no capability, on a platform that admits every range. -/
def fresh : State := { State.resetWith false false with refused := [] }

/-- What a test reads off an outcome; anything but a next state fails the test. -/
def after (o : Host.Outcome State Fault Refusal) (p : State → Bool) : Bool :=
  match o with
  | .next t => p t
  | .fault _ => false
  | .refused _ => false

/-- The RFC 8452 key H_RFC of 95_test_vectors.md, in memory order. -/
def keyBytes : List Byte := [0x25, 0x62, 0x93, 0x47, 0x58, 0x92, 0x42, 0x76, 0x1D, 0x31, 0xF8, 0x26, 0xBA, 0x4B, 0x75, 0x7B]

/-- X1 of 95_test_vectors.md, in memory order. -/
def x1Bytes : List Byte := [0x4F, 0x4F, 0x95, 0x66, 0x8C, 0x83, 0xDF, 0xB6, 0x40, 0x17, 0x62, 0xBB, 0x2D, 0x01, 0xA2, 0x62]

/-- The first power table of 95_test_vectors.md section 2.4. -/
def powRfc : KeyPowers :=
  ⟨0xFCC250A53C16E52BEC3B091A65E4E538, 0x5E1FCED63AAC2996E975BEAEDF3EEEF7, 0xAF440DB883F0C0A90DD16AA9B3DD1F95,
    0xB3AA9EAF8FE68A11D6984B30CD82AFDB, 0x0D63D263C0CAAD08593F2763B96BE528, 0x8E483D2790A6C2800057C13B363AE95A,
    0xA5F02136690050D6982ECE04D42E0E44, 0x7B754BBA26F8311D7642925847936225⟩

/-- A core that holds the RFC key, with X1 at 0x2000 and OPA = X1, OPB = H_RFC in the window. -/
def keyed : State :=
  { fresh with
    kv := true, hKey := 0x7B754BBA26F8311D7642925847936225, pow := powRfc
    addr := 0x2000, len := 16, mem := writeBytes [] 0x2000 x1Bytes
    opaHi := 0x62A2012DBB621740, opaLo := 0xB6DF838C66954F4F, opbHi := 0x7B754BBA26F8311D, opbLo := 0x7642925847936225 }

/-! ### The commands, one step each -/

/-- 44_context.md R109's example, over a range that wraps past 2^64 − 1 (20_memory.md R41). -/
theorem test_setkey_rfc :
    after (exec .setkey { fresh with addr := 0xFFFFFFFFFFFFFFF8, len := 16, mem := writeBytes [] 0xFFFFFFFFFFFFFFF8 keyBytes })
      (fun t => t.pow == powRfc && t.hKey == 0x7B754BBA26F8311D7642925847936225 && t.kv && t.lastOp == 0x01) = true := by
  decide +kernel

/-- Program P3, line 13: a failing SETKEY keeps the Context (95_test_vectors.md). -/
theorem test_setkey_zero_key :
    after (exec .setkey { keyed with addr := 0x1000, ef := true })
      (fun t => t.statusWord == 0x00010023 && t.pow == powRfc) = true := by decide +kernel

theorem test_clear :
    after (exec .clear { keyed with hashState := 5 }) (fun t => t.hashState == 0 && t.kv && t.statusWord == 0x00020001) = true := by
  decide +kernel

/-- S1 (95_test_vectors.md 1.1). -/
theorem test_update_s1 :
    after (exec .update keyed) (fun t => t.hashState == 0x776D08511501169C9850FF3745C6DACE && t.statusWord == 0x00030001) = true := by
  decide +kernel

/-- 95_test_vectors.md 2.5, LEN = 128: one stride and no tail. -/
theorem test_update_stride :
    after (exec .update { keyed with len := 128, mem := writeBytes [] 0x2000 ((List.range 128).map (BitVec.ofNat 8)) })
      (fun t => t.hashState == 0x569B01182C531F88D3CEA5744F7B7A65) = true := by decide +kernel

/-- Program P3, line 1. -/
theorem test_sum_no_key : after (exec .sum fresh) (fun t => t.statusWord == 0x00040042 && t.resLo == 0) = true := by
  decide +kernel

theorem test_sum :
    after (exec .sum { keyed with hashState := 0x776D08511501169C9850FF3745C6DACE })
      (fun t => t.resLo == 0x9850FF3745C6DACE && t.resHi == 0x776D08511501169C) = true := by decide +kernel

/-- 44_context.md R113's example: the first byte of H, of S and of POW[0], and the last of POW[7]. -/
theorem test_save_image :
    after (exec .save { keyed with len := 160, addr := 0x3000, hashState := 0x776D08511501169C9850FF3745C6DACE })
      (fun t => readByte t.mem 0x3000 == 0x25 && readByte t.mem 0x3010 == 0xCE && readByte t.mem 0x3020 == 0x38 &&
        readByte t.mem 0x309F == 0x7B && readByte t.mem 0x30A0 == 0 && readByte t.mem 0x2000 == 0x4F) = true := by
  decide +kernel

theorem test_save_length : after (exec .save { keyed with len := 161 }) (fun t => t.statusWord == 0x00050033) = true := by
  decide +kernel

/-- 44_context.md R114: the image of 44_context.md R112 with H_RFC at offset 0 and X1 at offset 144 (POW[7]). -/
theorem test_load_image :
    after (exec .load { fresh with len := 160, mem := writeBytes (writeBytes [] 0 keyBytes) 144 x1Bytes })
      (fun t => t.hKey == 0x7B754BBA26F8311D7642925847936225 && t.pow.p7 == 0x62A2012DBB621740B6DF838C66954F4F && t.kv &&
        t.hashState == 0) = true := by decide +kernel

theorem test_load_length : after (exec .load fresh) (fun t => t.statusWord == 0x00060032) = true := by decide +kernel

/-- Program P4, line 4. -/
theorem test_clmul00 :
    after (exec .clmul00 keyed) (fun t => t.resHi == 0x339BA2B05AB38E63 && t.resLo == 0xC10FF3B0516C2593 && t.lastOp == 0x10) = true := by
  decide +kernel

/-- Program P4, line 5. -/
theorem test_clmul11 :
    after (exec .clmul11 keyed) (fun t => t.resHi == 0x1177339EE4C3CF41 && t.resLo == 0x9FC651AAEC50C440 && t.lastOp == 0x10) = true := by
  decide +kernel

/-- Program P4, line 3. -/
theorem test_fmul :
    after (exec .fmul keyed) (fun t => t.res == 0x776D08511501169C9850FF3745C6DACE && t.lastOp == 0x11) = true := by decide +kernel

/-- 41_fmul.md R86, the corner case of all ones. -/
theorem test_fmul_ones :
    fmul 0xFFFFFFFFFFFFFFFFFFFFFFFFFFFFFFFF 0xFFFFFFFFFFFFFFFFFFFFFFFFFFFFFFFF = 0x7A015555555555555555555555555555 := by
  decide +kernel

/-- S5 (95_test_vectors.md 1.5), the RFC vector. -/
theorem test_double :
    after (exec .double { fresh with opaHi := 0xD852A62BA9758182, opaLo := 0xED7D38F94DC0989C })
      (fun t => t.resHi == 0x72A54C5752EB0305 && t.resLo == 0xDAFA71F29B813139 && t.lastOp == 0x12) = true := by decide +kernel

theorem test_double_reduces : double 0x80000000000000000000000000000000 = 0xC2000000000000000000000000000001 := by decide +kernel

/-- Program P3, line 9: an illegal value with a legal low half. -/
theorem test_illegal_command :
    after (step { fresh with inputs := [.writeReg 0x00 0x100000001] }) (fun t => t.statusWord == 0x00010052) = true := by
  decide +kernel

/-- 40_clmul.md R67: the stripes of every fifth bit are exact where the stride-4 form fails (90_conflicts.md C3). -/
theorem test_portable_ones :
    clmulPortable 0xFFFFFFFFFFFFFFFF 0xFFFFFFFFFFFFFFFF = 0x55555555555555555555555555555555 := by decide +kernel

theorem test_fetch_word : after (step (State.reset.withFetchWord 32 0x12)) (fun t => t.lastOp == 0x12) = true := by decide

/-! ### Witnesses: a concrete state meets the hypotheses of each statement, clause by clause -/

theorem witness_DecodeEncodeAgree : Instr.clmul11.wf = true ∧ decode 0x1110 = .ok .clmul11 := by decide

theorem witness_IllegalCommandsByClass :
    ∀ v ∈ [(0x00 : Limb), 0x07, 0x0F, 0x13, 0xFF, 0x110, 0x1011, 0x10003, 0x100000004],
      ∃ s : State, ∃ rest e, s.inputs = .writeReg 0x00 v :: rest ∧ decode v = .error e ∧ s.racing = [] := by
  intro v hv
  have h : ∃ e, decode v = .error e := by
    fin_cases hv <;> exact ⟨_, rfl⟩
  obtain ⟨e, h⟩ := h
  exact ⟨{ fresh with inputs := [.writeReg 0x00 v] }, [], e, rfl, h, rfl⟩

theorem witness_StepRunsDecodedCommand :
    ({ keyed with inputs := [.writeReg 0x00 0x11] } : State).inputs = [.writeReg 0x00 0x11] ∧ decode 0x11 = .ok .fmul ∧
    ({ keyed with inputs := [.writeReg 0x00 0x11] } : State).racing = [] := ⟨rfl, by decide, rfl⟩

theorem witness_CoreWaitsWithoutInput : fresh.inputs = [] := rfl

/-- Indices at the ends of the ranges: 0x01 and 0x08 (read-only), 0x02 and 0x07 (read/write), 0x0B (reserved). -/
theorem witness_WindowAccessSemantics :
    (∀ index ∈ [(0x01 : BitVec 8), 0x02, 0x07, 0x08, 0x0B, 0xFF],
      ({ fresh with inputs := [.writeReg index 9] } : State).inputs = [.writeReg index 9] ∧ index ≠ 0x00 ∧
      ∀ v, HostOp.writeReg index 9 ≠ .writeReg 0x00 v) ∧
    ({ fresh with inputs := [.readReg 0x02] } : State).inputs = [.readReg 0x02] ∧
    ((0x00 : BitVec 8) = 0x00 ∨ 0x0B ≤ (0x00 : BitVec 8).toNat) ∧ ((0x0B : BitVec 8) = 0x00 ∨ 0x0B ≤ (0x0B : BitVec 8).toNat) ∧
    step { fresh with inputs := [.readReg 0x02] } = .next { fresh with hostWord := 0 } ∧
    (∀ v, HostOp.readReg 0x02 ≠ .writeReg 0x00 v) ∧ (∀ c x, HostOp.readReg 0x02 ≠ .powerOn c x) := by
  refine ⟨?_, rfl, by decide, by decide, rfl, by simp, by simp⟩
  intro index h
  refine ⟨rfl, ?_, ?_⟩ <;> fin_cases h <;> simp

theorem witness_WindowWriteFrame :
    ({ fresh with inputs := [.writeReg 0x02 9] } : State).inputs = [.writeReg 0x02 9] ∧ (0x02 : BitVec 8) ≠ 0x00 := ⟨rfl, by decide⟩

/-- CapSampledAtPowerOn, PowerOnResetValues, BackendSelectedAtPowerOn, PowerOnResetFrame. -/
theorem witness_power_on (c x : Bool) :
    ({ keyed with inputs := [.powerOn c x] } : State).inputs = [.powerOn c x] := rfl

theorem witness_CapSampledAtPowerOn :
    step { fresh with inputs := [.race 0 1] } = .next { fresh with racing := [(0, 1)], draw := 1 } ∧
    ∀ c x, HostOp.race 0 1 ≠ .powerOn c x := ⟨rfl, by simp⟩

/-- A step that keeps KV and EF set, and one that changes H. -/
theorem witness_OnlyPowerOnDiscards :
    after (step { keyed with ef := true, inputs := [.writeReg 0x00 0x02] }) (fun t => t.kv && t.ef) = true ∧
    (∀ c x, HostOp.writeReg 0x00 0x02 ≠ .powerOn c x) ∧
    after (step { keyed with inputs := [.writeReg 0x00 0x01] }) (fun t => t.hKey != keyed.hKey) = true := by
  refine ⟨by decide +kernel, by simp, by decide +kernel⟩

theorem witness_HostMemoryAccess :
    ({ fresh with inputs := [.writeMem 7 1] } : State).inputs = [.writeMem 7 1] ∧ memoryWf fresh.mem = true ∧
    ({ fresh with inputs := [.readMem 7] } : State).inputs = [.readMem 7] := ⟨rfl, rfl, rfl⟩

/-- A legal and an illegal command that end. -/
theorem witness_StatusAtEndOfCommand :
    (∃ t, step { keyed with inputs := [.writeReg 0x00 0x04] } = .next t) ∧
    ∃ t, step { keyed with inputs := [.writeReg 0x00 0x104] } = .next t := ⟨⟨_, rfl⟩, ⟨_, rfl⟩⟩

/-- ErrorCauses: a state for each error's conditions. -/
theorem witness_ErrorCauses :
    fresh.len ≠ 16 ∧
    (State.memAdmits { fresh with len := 16 } fresh.addr 16 = true ∧
      ∀ k < 16, State.coreByte { fresh with len := 16 } (byteAddr fresh.addr k) = 0) ∧
    (keyed.kv = true ∧ ({ keyed with len := 17 } : State).len.toNat % 16 ≠ 0 ∧ keyed.len ≠ 160) ∧ fresh.kv = false := by
  refine ⟨by decide, ⟨by decide, ?_⟩, by decide, rfl⟩
  intro k hk
  interval_cases k <;> rfl

/-- SUM and CLEAR, between them, meet the premises of every clause. -/
theorem witness_CommandFrame :
    (∃ t, exec .sum keyed = .next t) ∧ (∃ t, exec .clear keyed = .next t) ∧
    Instr.sum ≠ .setkey ∧ Instr.sum ≠ .load ∧ Instr.sum ≠ .clear ∧ Instr.sum ≠ .update ∧ Instr.clear ≠ .save :=
  ⟨⟨_, rfl⟩, ⟨_, rfl⟩, by decide⟩

theorem witness_UnkeyedContextIsHidden : fresh.kv = false := rfl

theorem witness_BackendIsUnobservable : (0x02 : BitVec 8) ≠ 0x01 ∧ (7 ≠ 8 ∧ 7 ≠ 9) ∧ (10 ≠ 8 ∧ 10 ≠ 9) := by decide

/-- SumCommand's two SUMs in a row. -/
theorem witness_two_sums : ∃ t u, exec .sum keyed = .next t ∧ exec .sum t = .next u := ⟨_, _, rfl, rfl⟩

theorem witness_ErrorsArePrecise : ∃ t, exec .sum fresh = .next t ∧ t.err ≠ .ok := ⟨_, rfl, by decide⟩

theorem witness_ArithmeticNeverFails : Instr.clear = .clmul00 ∨ Instr.clear = .clmul11 ∨ Instr.clear = .fmul ∨
    Instr.clear = .double ∨ Instr.clear = .clear := by decide

/-- A SETKEY and a memory that differs from the state's outside the key's 16 bytes only. -/
theorem witness_OnlyTheRangeIsRead :
    accessOf .setkey { fresh with len := 16 } = some ⟨.read, 0, 16⟩ ∧
    ∀ x : Limb, inRange 0 16 x = true →
      State.coreByte { fresh with len := 16, mem := [(16, 1)], racing := [(17, 1)] } x =
        State.coreByte { fresh with len := 16 } x := by
  refine ⟨rfl, ?_⟩
  intro x hx
  obtain ⟨i, hi, rfl⟩ := (inRange_iff 0 16 x).1 hx
  interval_cases i <;> decide

theorem witness_AccessSequenceIsDataIndependent :
    keyed.addr = ({ keyed with hKey := 1, hashState := 2 } : State).addr ∧
    keyed.len = ({ keyed with hKey := 1, hashState := 2 } : State).len ∧
    keyed.kv = ({ keyed with hKey := 1, hashState := 2 } : State).kv := ⟨rfl, rfl, rfl⟩

/-- The address range's last byte, and an address outside a range that wraps. -/
theorem witness_MemReadAndMemWrite :
    keyed.racing = [] ∧ memoryWf keyed.mem = true ∧ 16 ≤ 2 ^ 64 ∧
    ∀ i < 16, (8 : Limb).toNat ≠ ((0xFFFFFFFFFFFFFFF8 : Limb).toNat + i) % 2 ^ 64 := by
  refine ⟨rfl, by decide +kernel, by norm_num, by decide⟩

theorem witness_RaceReachesOnlyRacedBytes :
    memoryWf ({ fresh with racing := [(5, 1)] } : State).mem = true ∧
    (∀ w ∈ ({ fresh with racing := [(5, 1)] } : State).racing, w.1 ≠ 6) ∧
    ({ fresh with racing := [(5, 1)] } : State).racing = [(5, 1)] ∧
    (∀ start n, (some ⟨.write, 6, 160⟩ : Option Access) = some ⟨.write, start, n⟩ → inRange start n 5 = false) := by
  refine ⟨rfl, ?_, rfl, ?_⟩
  · intro w hw
    obtain rfl : w = (5, 1) := List.mem_singleton.1 hw
    decide
  intro start n h
  cases h
  decide

/-- Degrees at the boundary: m + n = 65. -/
theorem witness_ClmulLaws : (0x1FFFFFFFF : Limb).toNat < 2 ^ 33 ∧ (0xFFFFFFFF : Limb).toNat < 2 ^ 32 ∧ 33 + 32 ≤ 65 := by decide

theorem witness_DoubleCommand :
    (0x00000000000000008000000000000000 : FieldElement).getLsbD 63 = true ∧
    (0x00000000000000008000000000000000 : FieldElement).getLsbD 127 = false := by decide

theorem witness_EngineTailThenStrides :
    ([1, 2, 3, 4, 5, 6, 7] : List FieldElement).length < 8 ∧
    ∀ c ∈ ([[1, 2, 3, 4, 5, 6, 7, 8]] : List (List FieldElement)), c.length = 8 := by decide

theorem witness_StrideReducesThreeSums :
    ∃ y : Fin 8 → FieldElement, ∀ i, y i = (fun _ => 3 : Fin 8 → FieldElement) i ^^^ (if i = 0 then (5 : FieldElement) else 0) :=
  ⟨_, fun _ => rfl⟩

/-- UPDATE: every clause's premises, at LEN 17, 0, 16, and a refused range. -/
theorem witness_UpdateCommand :
    fresh.kv = false ∧
    (keyed.kv = true ∧ ({ keyed with len := 17 } : State).len.toNat % 16 ≠ 0) ∧
    ({ keyed with len := 0 } : State).len = 0 ∧
    (keyed.len ≠ 0 ∧ keyed.len.toNat % 16 = 0 ∧ State.memAdmits { keyed with refused := [(0x2000, 16)] } 0x2000 16 = false) ∧
    keyed.memAdmits keyed.addr keyed.len.toNat = true := by decide

theorem witness_UpdateChunkingEquivalence :
    ∃ s : State, ∃ g : FieldElement, ∃ n1 n2 : Limb,
      s.kv = true ∧ s.pow = powers g ∧ n1.toNat % 16 = 0 ∧ n2.toNat % 16 = 0 ∧ n1.toNat + n2.toNat < 2 ^ 64 ∧
      s.memAdmits s.addr n1.toNat = true ∧ s.memAdmits (s.addr + n1) n2.toNat = true ∧
      s.memAdmits s.addr (n1 + n2).toNat = true ∧ s.racing = [] :=
  ⟨{ keyed with pow := powers 1 }, 1, 16, 128, rfl, rfl, by decide, by decide, by decide, by decide, by decide, by decide, rfl⟩

/-- SETKEY: every clause's premises. -/
theorem witness_SetkeyCommand :
    fresh.len ≠ 16 ∧
    (keyed.len = 16 ∧ State.memAdmits { keyed with refused := [(0x2000, 16)] } 0x2000 16 = false) ∧
    (keyed.memAdmits keyed.addr 16 = true ∧ State.readElem { keyed with addr := 0x1000 } 0x1000 = 0) ∧
    keyed.readElem keyed.addr ≠ 0 := by decide +kernel

theorem witness_SumCommand : fresh.kv = false ∧ keyed.kv = true := by decide

/-- SAVE, LOAD and their round trip: every clause's premises. -/
theorem witness_SaveCommand :
    fresh.kv = false ∧ (keyed.kv = true ∧ keyed.len ≠ 160) ∧
    State.memAdmits { keyed with len := 160, refused := [(0x2000, 160)] } 0x2000 160 = false ∧
    (({ keyed with len := 160 } : State).len = 160 ∧ State.memAdmits { keyed with len := 160 } keyed.addr 160 = true ∧
      memoryWf keyed.mem = true) ∧
    inRange 0x2000 160 0x20A0 = false ∧ inRange 0x2000 160 0x1FFF = false := by decide +kernel

theorem witness_LoadCommand :
    fresh.len ≠ 160 ∧ ({ fresh with len := 160 } : State).len = 160 ∧
    State.memAdmits { fresh with len := 160, refused := [(0, 160)] } 0 160 = false ∧
    State.memAdmits { fresh with len := 160 } fresh.addr 160 = true := by decide

/-- The state after a SAVE meets what the round trip asks of the state that LOADs. -/
theorem witness_SaveLoadRoundTrip :
    ∃ s t : State, s.kv = true ∧ s.len = 160 ∧ s.memAdmits s.addr 160 = true ∧ memoryWf s.mem = true ∧
      exec .save s = .next t ∧ t.len = 160 ∧ t.memAdmits t.addr 160 = true ∧ t.racing = [] ∧
      ∀ k < 160, readByte t.mem (byteAddr t.addr k).toNat = readByte t.mem (byteAddr s.addr k).toNat :=
  ⟨{ keyed with len := 160, mem := [] }, _, rfl, rfl, by decide, rfl, rfl, rfl, by decide, rfl, fun _ _ => rfl⟩

/-- The reset state meets the invariant, and with no input it takes a step. -/
theorem witness_InvariantKeptByStep : MachineInv fresh ∧ step fresh = .next fresh :=
  ⟨⟨rfl, rfl, by decide, by decide, fun _ => ⟨rfl, rfl, rfl⟩, by decide⟩, rfl⟩

end Sys2Proof.Tests
end

section
/-! ### O24: the backend shows in STATUS.BACKEND alone -/

namespace Sys2Proof.Machine

/-- The state with another backend latched. -/
def State.withBackend (be : Backend) (s : State) : State := { s with be := be }

/-- A change of backend passes through a check that does not look at the backend. -/
theorem ite_eq_mapNext {c : Prop} [Decidable c] {f : State → State} {o o' p p' : Host.Outcome State Fault Refusal}
    (ho : o' = mapNext f o) (hp : p' = mapNext f p) : (if c then o' else p') = mapNext f (if c then o else p) := by
  split
  · exact ho
  · exact hp

/-- The admission of a range does not look at the backend. -/
theorem State.withRange_withBackend {be : Backend} {s : State} {n : Nat} {o o' : Host.Outcome State Fault Refusal}
    (ho : o' = mapNext (withBackend be) o) :
    (s.withBackend be).withRange n o' = mapNext (withBackend be) (s.withRange n o) :=
  ite_eq_mapNext ho rfl

/-- SAVE's ending is the same on every backend, whatever it writes. -/
theorem State.complete_memWrite_withBackend (be : Backend) (s : State) (a : Limb) (bs : List Byte) (op : Byte) :
    ((s.withBackend be).memWrite a bs).complete op = mapNext (withBackend be) ((s.memWrite a bs).complete op) := rfl

/-- No command's effect depends on the backend (00_scope.md R9): its checks, in their order, and each of its endings are
the same. -/
theorem exec_withBackend (be : Backend) (i : Instr) (s : State) :
    exec i (s.withBackend be) = mapNext (State.withBackend be) (exec i s) := by
  cases i with
  | setkey => exact ite_eq_mapNext rfl (State.withRange_withBackend (ite_eq_mapNext rfl rfl))
  | update => exact ite_eq_mapNext rfl (ite_eq_mapNext rfl (ite_eq_mapNext rfl (State.withRange_withBackend rfl)))
  | sum => exact ite_eq_mapNext rfl rfl
  | save =>
    -- Stated apart, so that the check of `rfl` does not compute the 160-byte image.
    have hend := s.complete_memWrite_withBackend be s.addr (contextImage s) 0x05
    exact ite_eq_mapNext rfl (ite_eq_mapNext rfl (State.withRange_withBackend hend))
  | load => exact ite_eq_mapNext rfl (State.withRange_withBackend rfl)
  | clear | clmul00 | clmul11 | fmul | double => rfl

/-- Of the window's registers, only STATUS looks at the backend. -/
theorem State.readWindow_withBackend (be : Backend) (s : State) {index : BitVec 8} (h : index ≠ 0x01) :
    (s.withBackend be).readWindow index = s.readWindow index := by
  have hindex : index.toNat ≠ 0x01 := fun e => h (BitVec.eq_of_toNat_eq e)
  unfold State.readWindow
  split
  case h_1 => contradiction
  all_goals rfl

/-- Of the bits of STATUS, only BACKEND's look at the backend (10_state.md R24). -/
theorem State.getLsbD_statusWord_withBackend (be : Backend) (s : State) {k : Nat} (h8 : k ≠ 8) (h9 : k ≠ 9) :
    (s.withBackend be).statusWord.getLsbD k = s.statusWord.getLsbD k := by
  simp only [State.statusWord, State.withBackend, BitVec.getLsbD_append]
  split_ifs with hkv hef hreserved herr hbackend
  iterate 4 rfl
  · omega
  all_goals rfl

/-- Settles O24, command by command, then register by register, then bit by bit of STATUS. -/
theorem backendIsUnobservable : Obligations.BackendIsUnobservable := fun i s be =>
  ⟨exec_withBackend be i s, fun _ h => s.readWindow_withBackend be h,
    fun _ h8 h9 => s.getLsbD_statusWord_withBackend be h8 h9⟩

end Sys2Proof.Machine
end

section
/-! The carry-less product is additive in each operand, and a product with a power of x is a shift (40_clmul.md R66). -/

namespace Sys2Proof.Machine

theorem clmulUpTo_xor_left (x x' y : Limb) (n : Nat) :
    clmulUpTo (x ^^^ x') y n = clmulUpTo x y n ^^^ clmulUpTo x' y n := by
  induction n with
  | zero => simp [clmulUpTo]
  | succ n ih =>
    simp only [clmulUpTo, ih]
    cases y.getLsbD n
    · simp
    · simp only [if_true, BitVec.zeroExtend, BitVec.setWidth_xor, BitVec.shiftLeft_xor_distrib]
      ac_rfl

theorem clmulUpTo_xor_right (x y y' : Limb) (n : Nat) :
    clmulUpTo x (y ^^^ y') n = clmulUpTo x y n ^^^ clmulUpTo x y' n := by
  induction n with
  | zero => simp [clmulUpTo]
  | succ n ih =>
    have hterm (b c : Bool) (t : FieldElement) :
        (if (b ^^ c) then t else 0) = (if b then t else 0) ^^^ (if c then t else 0) := by
      cases b <;> cases c <;> simp
    simp only [clmulUpTo, ih, BitVec.getLsbD_xor, hterm]
    ac_rfl

theorem clmul64_xor_left (x x' y : Limb) : clmul64 (x ^^^ x') y = clmul64 x y ^^^ clmul64 x' y :=
  clmulUpTo_xor_left x x' y 64

theorem clmul64_xor_right (x y y' : Limb) : clmul64 x (y ^^^ y') = clmul64 x y ^^^ clmul64 x y' :=
  clmulUpTo_xor_right x y y' 64

theorem clmulUpTo_twoPow (x : Limb) {n : Nat} (hn : n < 64) (m : Nat) :
    clmulUpTo x (BitVec.twoPow 64 n) m = if n < m then x.zeroExtend 128 <<< n else 0 := by
  induction m with
  | zero => rfl
  | succ m ih =>
    have hbit : (BitVec.twoPow 64 n).getLsbD m = decide (n = m) := by
      simp [BitVec.getLsbD_twoPow, hn]
    simp only [clmulUpTo, ih, hbit, decide_eq_true_eq]
    rcases Nat.lt_trichotomy n m with h | rfl | h
    · simp [h, h.ne, Nat.lt_succ_of_lt h]
    · simp
    · simp [h.ne', Nat.not_lt.2 h.le, Nat.not_lt.2 (Nat.succ_le_of_lt h)]

/-- The product with x^n is a shift (40_clmul.md R66). -/
theorem clmul64_twoPow (x : Limb) {n : Nat} (hn : n < 64) :
    clmul64 x (BitVec.twoPow 64 n) = x.zeroExtend 128 <<< n := by
  rw [clmul64, clmulUpTo_twoPow x hn, if_pos hn]

theorem hi_zeroExtend_shiftLeft (x : Limb) {n : Nat} (hn : n ≤ 64) :
    hi (x.zeroExtend 128 <<< n) = x >>> (64 - n) := by
  apply BitVec.eq_of_getLsbD_eq
  intro k hk
  have hindex : 64 + k - n = 64 - n + k := by omega
  have hge : ¬ 64 + k < n := by omega
  have hk128 : 64 + k < 128 := by omega
  have hindex128 : 64 - n + k < 128 := by omega
  simp only [hi, BitVec.zeroExtend, BitVec.getLsbD_extractLsb', BitVec.getLsbD_shiftLeft, BitVec.getLsbD_setWidth,
    BitVec.getLsbD_ushiftRight, hindex, hge, hk, hk128, hindex128, decide_true, decide_false, Bool.not_false, Bool.true_and]

theorem lo_zeroExtend_shiftLeft (x : Limb) (n : Nat) : lo (x.zeroExtend 128 <<< n) = x <<< n := by
  apply BitVec.eq_of_getLsbD_eq
  intro k hk
  have hk128 : k < 128 := by omega
  have hindex128 : k - n < 128 := by omega
  simp only [lo, BitVec.zeroExtend, BitVec.getLsbD_extractLsb', BitVec.getLsbD_shiftLeft, BitVec.getLsbD_setWidth,
    Nat.zero_add, hk, hk128, hindex128, decide_true, Bool.true_and]

end Sys2Proof.Machine
end

section
/-! The shift-XOR reduction of the portable backend is Gueron's reduction (41_fmul.md R79, R80). -/

namespace Sys2Proof.Machine

/-- RED_CONST as a polynomial (41_fmul.md R77). -/
theorem redConst_eq_xor_twoPow : redConst = BitVec.twoPow 64 63 ^^^ BitVec.twoPow 64 62 ^^^ BitVec.twoPow 64 57 := by
  decide

/-- The product with RED_CONST is three shifts (41_fmul.md R80). -/
theorem clmul64_redConst (x : Limb) :
    clmul64 x redConst = x.zeroExtend 128 <<< 63 ^^^ x.zeroExtend 128 <<< 62 ^^^ x.zeroExtend 128 <<< 57 := by
  have h63 := clmul64_twoPow x (show 63 < 64 by omega)
  have h62 := clmul64_twoPow x (show 62 < 64 by omega)
  have h57 := clmul64_twoPow x (show 57 < 64 by omega)
  rw [redConst_eq_xor_twoPow, clmul64_xor_right, clmul64_xor_right, h63, h62, h57]

theorem hi_clmul64_redConst (x : Limb) : hi (clmul64 x redConst) = x >>> 1 ^^^ x >>> 2 ^^^ x >>> 7 := by
  rw [clmul64_redConst, hi_xor, hi_xor, hi_zeroExtend_shiftLeft x (by omega), hi_zeroExtend_shiftLeft x (by omega),
    hi_zeroExtend_shiftLeft x (by omega)]

theorem lo_clmul64_redConst (x : Limb) : lo (clmul64 x redConst) = x <<< 63 ^^^ x <<< 62 ^^^ x <<< 57 := by
  rw [clmul64_redConst, lo_xor, lo_xor, lo_zeroExtend_shiftLeft, lo_zeroExtend_shiftLeft, lo_zeroExtend_shiftLeft]

/-- The shift-XOR reduction equals Gueron's on every input (41_fmul.md R80). -/
theorem sxred_eq_mred (h1 h0 l1 l0 m1 m0 : Limb) :
    sxred h1 h0 l1 l0 m1 m0 = mred ⟨h1, h0 ^^^ m1 ^^^ h1 ^^^ l1, l1 ^^^ m0 ^^^ h0 ^^^ l0, l0⟩ := by
  -- R79's updated l1 is R77's B0.
  have hb0 : l1 ^^^ (m0 ^^^ l0 ^^^ h0) ^^^ l0 <<< 63 ^^^ l0 <<< 62 ^^^ l0 <<< 57 =
      l1 ^^^ m0 ^^^ h0 ^^^ l0 ^^^ (l0 <<< 63 ^^^ l0 <<< 62 ^^^ l0 <<< 57) := by
    rw [BitVec.xor_assoc m0, BitVec.xor_comm l0 h0]
    simp only [BitVec.xor_assoc]
  simp only [sxred, mred, mredFold, hi_clmul64_redConst, lo_clmul64_redConst, hb0]
  generalize l1 ^^^ m0 ^^^ h0 ^^^ l0 ^^^ (l0 <<< 63 ^^^ l0 <<< 62 ^^^ l0 <<< 57) = b0
  -- What remains holds for any values in the place of the shifted limbs.
  congr 1
  · generalize b0 >>> 1 = p, b0 >>> 2 = q, b0 >>> 7 = r
    ac_rfl
  · generalize l0 >>> 1 = p, l0 >>> 2 = q, l0 >>> 7 = r, b0 <<< 63 = t, b0 <<< 62 = u, b0 <<< 57 = v
    ac_rfl

end Sys2Proof.Machine
end

section
/-! The bit-sliced multiplier of the portable backend (40_clmul.md R67), by the carry argument of R68. -/

namespace Sys2Proof.Machine

/-- Every set bit lies in the stripe of the bits b with b mod 5 = r mod 5 (40_clmul.md R67). -/
def InStripe {w : Nat} (r : Nat) (v : BitVec w) : Prop := ∀ k, v.getLsbD k = true → k % 5 = r % 5

theorem getLsbD_stripeMask {r : Nat} (hr : r < 5) {b : Nat} (hb : b < 64) :
    (stripeMask r).getLsbD b = decide (b % 5 = r) := by
  have h : ∀ r < 5, ∀ b < 64, (stripeMask r).getLsbD b = decide (b % 5 = r) := by decide
  exact h r hr b hb

theorem getLsbD_resultMask {r : Nat} (hr : r < 5) {b : Nat} (hb : b < 128) :
    (resultMask r).getLsbD b = decide (b % 5 = r) := by
  have h : ∀ r < 5, ∀ b < 128, (resultMask r).getLsbD b = decide (b % 5 = r) := by decide
  exact h r hr b hb

theorem inStripe_and_stripeMask (x : Limb) {r : Nat} (hr : r < 5) : InStripe r (x &&& stripeMask r) := by
  intro k hk
  rw [BitVec.getLsbD_and, Bool.and_eq_true] at hk
  have hk64 : k < 64 := BitVec.lt_of_getLsbD hk.1
  simpa [getLsbD_stripeMask hr hk64, Nat.mod_eq_of_lt hr] using hk.2

/-- Stripes add under a shift: bit k of u goes to k + n. -/
theorem InStripe.zeroExtend_shiftLeft {i j n : Nat} {u : Limb} (hu : InStripe i u) (hn : n % 5 = j % 5) :
    InStripe (i + j) (u.zeroExtend 128 <<< n) := by
  intro k hk
  simp only [BitVec.getLsbD_shiftLeft, BitVec.getLsbD_setWidth, BitVec.zeroExtend, Bool.and_eq_true, Bool.not_eq_true',
    decide_eq_true_eq, decide_eq_false_iff_not] at hk
  obtain ⟨⟨-, hge⟩, -, hbit⟩ := hk
  have := hu _ hbit
  omega

theorem InStripe.xor {w r : Nat} {a b : BitVec w} (ha : InStripe r a) (hb : InStripe r b) : InStripe r (a ^^^ b) := by
  intro k hk
  by_cases hka : a.getLsbD k = true
  · exact ha k hka
  · exact hb k (by simpa [hka] using hk)

theorem inStripe_zero (w r : Nat) : InStripe r (0 : BitVec w) := by
  intro k hk
  simp at hk

/-- The carry-less product of two stripes lies in one stripe. -/
theorem InStripe.clmulUpTo_inStripe {i j : Nat} {u v : Limb} (hu : InStripe i u) (hv : InStripe j v) (n : Nat) :
    InStripe (i + j) (clmulUpTo u v n) := by
  induction n with
  | zero => exact inStripe_zero 128 _
  | succ n ih =>
    refine ih.xor ?_
    split
    · exact hu.zeroExtend_shiftLeft (hv n ‹_›)
    · exact inStripe_zero 128 _

/-- Below a bit k of the stripe, the four nearest bits are 0, so sixteen such values add up to at most 2^k below bit k
(40_clmul.md R68). -/
theorem InStripe.sixteen_mul_mod_le {w r k : Nat} {v : BitVec w} (hv : InStripe r v) (hk : k % 5 = r % 5) :
    16 * (v.toNat % 2 ^ k) ≤ 2 ^ k := by
  have hlow : v.toNat % 2 ^ k < 2 ^ (k - 4) := by
    refine Nat.lt_pow_two_of_testBit _ fun b hb => ?_
    rw [Nat.testBit_mod_two_pow, ← BitVec.getLsbD]
    by_cases hbit : v.getLsbD b = true
    · have := hv b hbit
      have hbk : ¬ b < k := by omega
      simp [hbk]
    · simp [hbit]
  rcases Nat.lt_or_ge k 4 with h4 | h4
  · rw [Nat.sub_eq_zero_of_le h4.le] at hlow
    omega
  · have hpow : 2 ^ k = 2 ^ (k - 4) * 16 := by rw [← pow_sub_mul_pow 2 h4]; rfl
    omega

/-- With no carry into bit k, the parts below it add up. -/
theorem toNat_add_mod_two_pow_of_lt {w k : Nat} (hk : k < w) {a b : BitVec w} (h : a.toNat % 2 ^ k + b.toNat % 2 ^ k < 2 ^ k) :
    (a + b).toNat % 2 ^ k = a.toNat % 2 ^ k + b.toNat % 2 ^ k := by
  rw [BitVec.toNat_add, Nat.mod_mod_of_dvd _ (Nat.pow_dvd_pow 2 hk.le), Nat.add_mod, Nat.mod_eq_of_lt h]

/-- With no carry into bit k, the sum's bit k is the XOR of the two. -/
theorem getLsbD_add_of_lt {w k : Nat} (hk : k < w) {a b : BitVec w} (h : a.toNat % 2 ^ k + b.toNat % 2 ^ k < 2 ^ k) :
    (a + b).getLsbD k = (a.getLsbD k ^^ b.getLsbD k) := by
  have hcarry : BitVec.carry k a b false = false := by simpa [BitVec.carry] using h
  rw [BitVec.getLsbD_add hk, hcarry, Bool.xor_false]

/-- A sum of at most c terms of k's stripe, beside their XOR: the two have the same bit k, and the sum's lower bits are
far from a carry while c is below 16 (40_clmul.md R68). -/
def CarryFree (k c : Nat) (sum parity : FieldElement) : Prop :=
  sum.getLsbD k = parity.getLsbD k ∧ 16 * (sum.toNat % 2 ^ k) ≤ c * 2 ^ k

theorem CarryFree.zero (k : Nat) : CarryFree k 0 0 0 := by simp [CarryFree]

theorem CarryFree.mono {k c c' : Nat} {a b : FieldElement} (h : CarryFree k c a b) (hc : c ≤ c') : CarryFree k c' a b :=
  ⟨h.1, h.2.trans (Nat.mul_le_mul_right _ hc)⟩

theorem CarryFree.add {k c : Nat} {a b t : FieldElement} (h : CarryFree k c a b) (hk : k < 128) (hc : c < 15)
    (ht : 16 * (t.toNat % 2 ^ k) ≤ 2 ^ k) : CarryFree k (c + 1) (a + t) (b ^^^ t) := by
  obtain ⟨hbit, hlow⟩ := h
  have hroom : c * 2 ^ k ≤ 14 * 2 ^ k := Nat.mul_le_mul_right _ (by omega)
  have hpos := Nat.two_pow_pos k
  have hlt : a.toNat % 2 ^ k + t.toNat % 2 ^ k < 2 ^ k := by omega
  constructor
  · rw [getLsbD_add_of_lt hk hlt, hbit, BitVec.getLsbD_xor]
  · rw [toNat_add_mod_two_pow_of_lt hk hlt, Nat.add_mul]
    omega

/-- The partial product of v's bit n, nothing or one more term; v has (n + 4 − j) / 5 places for a set bit below n. -/
theorem CarryFree.add_partial {i j k n : Nat} {u v : Limb} {a b : FieldElement} (hu : InStripe i u) (hv : InStripe j v)
    (hj : j < 5) (hk : k < 128) (hkij : k % 5 = (i + j) % 5) (hn : n < 64) (h : CarryFree k ((n + 4 - j) / 5) a b) :
    CarryFree k ((n + 5 - j) / 5) (a + if v.getLsbD n then u.zeroExtend 128 <<< n else 0)
      (b ^^^ if v.getLsbD n then u.zeroExtend 128 <<< n else 0) := by
  split
  · have hnj : n % 5 = j % 5 := hv n ‹_›
    have hcount : (n + 5 - j) / 5 = (n + 4 - j) / 5 + 1 := by omega
    rw [hcount]
    exact h.add hk (by omega) ((hu.zeroExtend_shiftLeft hnj).sixteen_mul_mod_le hkij)
  · simpa using h.mono (by omega)

/-- The partial products of the integer product of two stripes add up without a carry into their stripe's bits: at most
one for every fifth bit of the second operand (40_clmul.md R68). -/
theorem carryFree_mulRec {i j k : Nat} {u v : Limb} (hu : InStripe i u) (hv : InStripe j v) (hj : j < 5) (hk : k < 128)
    (hkij : k % 5 = (i + j) % 5) (n : Nat) (hn : n < 64) :
    CarryFree k ((n + 5 - j) / 5) ((u.zeroExtend 128).mulRec (v.zeroExtend 128) n) (clmulUpTo u v (n + 1)) := by
  have hbit (m : Nat) (hm : m < 64) : (v.zeroExtend 128).getLsbD m = v.getLsbD m := by
    have hm128 : m < 128 := by omega
    rw [BitVec.zeroExtend, BitVec.getLsbD_setWidth, decide_eq_true hm128, Bool.true_and]
  induction n with
  | zero =>
    have h := ((CarryFree.zero k).mono (Nat.zero_le _)).add_partial hu hv hj hk hkij hn
    rw [BitVec.mulRec_zero_eq, hbit 0 hn]
    simpa [clmulUpTo] using h
  | succ n ih =>
    rw [BitVec.mulRec_succ_eq, hbit (n + 1) hn, clmulUpTo]
    exact (ih (by omega)).add_partial hu hv hj hk hkij hn

/-- The integer product of two stripes holds their carry-less product in its stripe. -/
theorem getLsbD_mul_stripes {i j k : Nat} {u v : Limb} (hu : InStripe i u) (hv : InStripe j v) (hj : j < 5) (hk : k < 128)
    (hkij : k % 5 = (i + j) % 5) : (u.zeroExtend 128 * v.zeroExtend 128).getLsbD k = (clmul64 u v).getLsbD k := by
  have hmul : u.zeroExtend 128 * v.zeroExtend 128 = (u.zeroExtend 128).mulRec (v.zeroExtend 128) 63 := by
    rw [BitVec.mulRec_eq_mul_signExtend_setWidth]
    simp
  rw [hmul]
  exact (carryFree_mulRec hu hv hj hk hkij 63 (by omega)).1

/-- One masked integer product is the carry-less product of the two stripes. -/
theorem stripeProduct_eq_clmul64 (x y : Limb) {i j : Nat} (hi5 : i < 5) (hj5 : j < 5) :
    stripeProduct x y i j = clmul64 (x &&& stripeMask i) (y &&& stripeMask j) := by
  have hx := inStripe_and_stripeMask x hi5
  have hy := inStripe_and_stripeMask y hj5
  apply BitVec.eq_of_getLsbD_eq
  intro k hk
  rw [stripeProduct, BitVec.getLsbD_and, getLsbD_resultMask (Nat.mod_lt _ (by omega)) hk]
  by_cases hkij : k % 5 = (i + j) % 5
  · rw [getLsbD_mul_stripes hx hy hj5 hk hkij, decide_eq_true hkij, Bool.and_true]
  · have hclear : (clmul64 (x &&& stripeMask i) (y &&& stripeMask j)).getLsbD k ≠ true := fun h =>
      hkij (hx.clmulUpTo_inStripe hy 64 k h)
    rw [decide_eq_false hkij, Bool.and_false, Bool.eq_false_of_not_eq_true hclear]

/-- The five stripes of a limb make up the limb. -/
theorem xor_stripes (x : Limb) :
    (x &&& stripeMask 0) ^^^ (x &&& stripeMask 1) ^^^ (x &&& stripeMask 2) ^^^ (x &&& stripeMask 3) ^^^
      (x &&& stripeMask 4) = x := by
  apply BitVec.eq_of_getLsbD_eq
  intro k hk
  have hmasks : stripeMask 0 ^^^ stripeMask 1 ^^^ stripeMask 2 ^^^ stripeMask 3 ^^^ stripeMask 4 = BitVec.allOnes 64 := by
    decide
  simp only [BitVec.getLsbD_xor, BitVec.getLsbD_and, ← Bool.and_xor_distrib_left]
  simp only [← BitVec.getLsbD_xor, hmasks, BitVec.getLsbD_allOnes, hk, decide_true, Bool.and_true]

/-- An additive function's values at the five stripes of a limb make up its value at the limb. -/
theorem foldl_xor_stripes {f : Limb → FieldElement} (hf : ∀ x y, f (x ^^^ y) = f x ^^^ f y) (x : Limb) (acc : FieldElement) :
    (List.range 5).foldl (fun acc i => acc ^^^ f (x &&& stripeMask i)) acc = acc ^^^ f x := by
  conv_rhs => rw [← xor_stripes x]
  simp only [hf, ← BitVec.xor_assoc]
  rfl

/-- The bit-sliced multiply gives the carry-less product for every input (40_clmul.md R67, R68). -/
theorem clmulPortable_eq_clmul64 (x y : Limb) : clmulPortable x y = clmul64 x y :=
  calc clmulPortable x y
    _ = (List.range 5).foldl (fun acc i => (List.range 5).foldl
          (fun acc j => acc ^^^ clmul64 (x &&& stripeMask i) (y &&& stripeMask j)) acc) 0 :=
      List.foldl_ext _ _ 0 fun acc i hi => List.foldl_ext _ _ acc fun _ j hj => by
        rw [stripeProduct_eq_clmul64 x y (List.mem_range.1 hi) (List.mem_range.1 hj)]
    _ = (List.range 5).foldl (fun acc i => acc ^^^ clmul64 (x &&& stripeMask i) y) 0 := by
      simp only [foldl_xor_stripes (clmul64_xor_right _)]
    _ = 0 ^^^ clmul64 x y := foldl_xor_stripes (f := fun x => clmul64 x y) (fun a b => clmul64_xor_left a b y) x 0
    _ = clmul64 x y := BitVec.zero_xor

end Sys2Proof.Machine
end

section
/-! O49: every backend's own algorithms give the reference results. -/

namespace Sys2Proof.Machine

/-- Assembly with 3-way XORs gives the same limbs (40_clmul.md R71). -/
theorem assemble3Xor_eq_assemble (t : Triple) : assemble3Xor t = assemble t := by
  have hx2 : lo t.h ^^^ hi (xor3 t.m t.h t.l) = lo t.h ^^^ hi t.m ^^^ hi t.h ^^^ hi t.l := by
    simp only [xor3, hi_xor, BitVec.xor_assoc]
  have hx1 : hi t.l ^^^ lo (xor3 t.m t.h t.l) = hi t.l ^^^ lo t.m ^^^ lo t.h ^^^ lo t.l := by
    simp only [xor3, lo_xor, BitVec.xor_assoc]
  rw [assemble3Xor, hx2, hx1, assemble]

theorem backendMul_eq_clmul64 (be : Backend) : backendMul be = clmul64 := by
  funext x y
  cases be with
  | portable => exact clmulPortable_eq_clmul64 x y
  | hwClmul | hwClmul3Xor => exact clmulVector_eq_clmul64 x y

theorem backendReduce_eq_wideReduce (be : Backend) : backendReduce be = wideReduce := by
  funext t
  cases be with
  | portable => exact sxred_eq_mred ..
  | hwClmul => rfl
  | hwClmul3Xor => exact congrArg mred (assemble3Xor_eq_assemble t)

theorem backendFmul_eq_fmul (be : Backend) : backendFmul be = fmul := by
  funext a b
  rw [backendFmul, backendMul_eq_clmul64, backendReduce_eq_wideReduce, wideReduce, fmul, kara]

theorem backendPowers_eq_powers (be : Backend) : backendPowers be = powers := by
  funext h
  rw [backendPowers, backendFmul_eq_fmul, powers]

theorem backendEngine_eq_engine (be : Backend) : backendEngine be = engine := by
  funext s pow bs
  rw [backendEngine, backendFmul_eq_fmul, backendMul_eq_clmul64, backendReduce_eq_wideReduce, engine]
  rfl

/-- Settles O49: a backend's multiplier and reduction are the reference ones, so all that is composed of them is. -/
theorem backendsAgree : Obligations.BackendsAgree := fun be a b s pow blocks =>
  ⟨by rw [backendFmul_eq_fmul], by rw [backendPowers_eq_powers], by rw [backendEngine_eq_engine]⟩

end Sys2Proof.Machine
end

section
/-! The register window: what a host write changes and what a host read returns (10_state.md R21, R22, R24, R27). -/

namespace Sys2Proof.Machine

/-- A host write sets the read/write register at its index, if there is one, and nothing else (R22). -/
theorem State.writeWindow_eq (index : BitVec 8) (value : Limb) (s : State) :
    s.writeWindow index value = { s with
      addr := if index = 0x02 then value else s.addr
      len := if index = 0x03 then value else s.len
      opaLo := if index = 0x04 then value else s.opaLo
      opaHi := if index = 0x05 then value else s.opaHi
      opbLo := if index = 0x06 then value else s.opbLo
      opbHi := if index = 0x07 then value else s.opbHi } := by
  simp only [← BitVec.toNat_inj]
  unfold State.writeWindow
  split
  all_goals simp_all

@[simp] theorem State.statusWord_writeWindow (index : BitVec 8) (value : Limb) (s : State) :
    (s.writeWindow index value).statusWord = s.statusWord := by
  rw [State.writeWindow_eq]
  rfl

@[simp] theorem State.capWord_writeWindow (index : BitVec 8) (value : Limb) (s : State) :
    (s.writeWindow index value).capWord = s.capWord := by
  rw [State.writeWindow_eq]
  rfl

/-- What a host read returns after a host write (R22): the written value at a read/write index, and no other change. -/
theorem State.readWindow_writeWindow (index j : BitVec 8) (value : Limb) (s : State) :
    (s.writeWindow index value).readWindow j =
      if j = index ∧ 0x02 ≤ index.toNat ∧ index.toNat ≤ 0x07 then value else s.readWindow j := by
  unfold State.readWindow
  simp only [State.statusWord_writeWindow, State.capWord_writeWindow]
  simp only [State.writeWindow_eq, ← BitVec.toNat_inj]
  -- Register by register: the written one if its index is `index`, and otherwise the old one.
  split
  all_goals grind

/-- CMD and the reserved indices read 0 (R21, R22). -/
theorem State.readWindow_eq_zero {index : BitVec 8} (h : index = 0x00 ∨ 0x0B ≤ index.toNat) (s : State) :
    s.readWindow index = 0 := by
  rw [← BitVec.toNat_inj] at h
  unfold State.readWindow
  split
  case h_11 => rfl
  all_goals simp_all

/-- A window write to any index but CMD's is no command. -/
theorem State.perform_writeReg {index : BitVec 8} (h : index ≠ 0x00) (value : Limb) (s : State) :
    s.perform (.writeReg index value) = .next (s.writeWindow index value) := if_neg h

/-- Settles O8: a write that is no command is the window's write, register by register. -/
theorem windowWriteFrame : Obligations.WindowWriteFrame := by
  intro s index value rest hin hindex
  rw [step_input hin, State.perform_writeReg hindex, State.writeWindow_eq]

theorem State.readWindow_status (s : State) : s.readWindow 0x01 = s.statusWord := rfl

/-- The code 3 of STATUS.BACKEND is never produced (R24). -/
theorem backendCode_ne_three (be : Backend) : backendCode be ≠ 3 := by
  cases be <;> decide

/-- Settles O9: each field of STATUS is one piece of the concatenation. -/
theorem statusLayout : Obligations.StatusLayout := by
  intro s
  simp (disch := decide) only [State.readWindow_status, State.statusWord, BitVec.extractLsb'_append_eq_of_le,
    BitVec.extractLsb'_append_eq_of_add_le]
  simpa using backendCode_ne_three s.be

/-- CAP's bits (R27). -/
theorem State.getLsbD_capWord (s : State) (k : Nat) :
    s.capWord.getLsbD k = (decide (k = 0) && s.capClmul || decide (k = 1) && s.capXor3) := by
  simp only [State.capWord, BitVec.getLsbD_append, BitVec.getLsbD_ofBool]
  grind

end Sys2Proof.Machine
end

section
/-! What an input from outside can do, said once: a command and the settling of its races, power-on reset, or a host access
that leaves the core alone (logs 1, 9). -/

namespace Sys2Proof.Machine

/-- The state with everything blanked that a host access other than a command may change: the window operands, the memory
and what lies outside the core. -/
def State.guarded (s : State) : State :=
  { s with
    addr := 0, len := 0, opaLo := 0, opaHi := 0, opbLo := 0, opbHi := 0, mem := [], inputs := [], hostWord := 0
    hostByte := 0, racing := [], draw := 0 }

/-- What does not look at the blanked fields is the same in both states. -/
theorem State.eq_of_guarded {α : Type} (f : State → α) (hf : ∀ s, f s.guarded = f s) {s t : State}
    (h : t.guarded = s.guarded) : f t = f s := by
  rw [← hf t, h, hf s]

theorem State.guarded_writeWindow (index : BitVec 8) (value : Limb) (s : State) :
    (s.writeWindow index value).guarded = s.guarded := by
  rw [State.writeWindow_eq]
  rfl

theorem State.mem_writeWindow (index : BitVec 8) (value : Limb) (s : State) : (s.writeWindow index value).mem = s.mem := by
  rw [State.writeWindow_eq]

/-- What an input that answers a next state can have done. -/
theorem State.perform_next {op : HostOp} {s t : State} (h : s.perform op = .next t) :
    (∃ v, op = .writeReg 0x00 v ∧ s.issue v = .next t) ∨ (∃ c x, op = .powerOn c x ∧ t = s.powerOn c x) ∨
      (t.guarded = s.guarded ∧ (memoryWf s.mem = true → memoryWf t.mem = true)) := by
  cases op with
  | writeReg index value =>
    by_cases hindex : index = 0x00
    · subst hindex
      exact .inl ⟨value, rfl, h⟩
    · rw [State.perform_writeReg hindex] at h
      cases h
      rw [State.guarded_writeWindow, State.mem_writeWindow]
      exact .inr (.inr ⟨rfl, id⟩)
  | powerOn c x =>
    cases h
    exact .inr (.inl ⟨c, x, rfl, rfl⟩)
  | writeMem a b =>
    cases h
    exact .inr (.inr ⟨rfl, fun hmem => memoryWf_writeByte hmem a b⟩)
  | readReg | readMem | race =>
    cases h
    exact .inr (.inr ⟨rfl, id⟩)

/-- What the issue of a command that answers a next state can have done: the decoded command, or IllegalCommand, and then
the settling of the races. -/
theorem State.issue_next {v : Limb} {s t : State} (h : s.issue v = .next t) :
    ∃ u access, t = u.settleRaces access ∧
      ((∃ i, decode v = .ok i ∧ exec i s = .next u) ∨ u = s.endCommand .illegalCommand (opcodeByte v)) := by
  unfold State.issue at h
  split at h
  case h_1 i hdecode =>
    obtain ⟨u, hexec, ht⟩ := afterCommand_next h
    exact ⟨u, _, ht, .inl ⟨i, hdecode, hexec⟩⟩
  case h_2 =>
    obtain ⟨u, hend, ht⟩ := afterCommand_next h
    cases hend
    exact ⟨_, _, ht, .inr rfl⟩

/-- What a step that is not power-on reset can have done, with an input pending. -/
theorem step_next {s t : State} {op : HostOp} {rest : List HostOp} (hin : s.inputs = op :: rest) (h : step s = .next t)
    (hop : ∀ c x, op ≠ .powerOn c x) :
    (∃ v, op = .writeReg 0x00 v ∧ State.issue v { s with inputs := rest } = .next t) ∨ t.guarded = s.guarded := by
  rw [step_input hin] at h
  obtain hcmd | ⟨c, x, hpower, -⟩ | ⟨hguarded, -⟩ := State.perform_next h
  · exact .inl hcmd
  · exact absurd hpower (hop c x)
  · exact .inr hguarded

/-- One line of R60's case distinction: its word is its command's, and so are those of the lines below it. -/
theorem eq_encode_of_ite {c word : BitVec 32} {i j : Instr} {o : Option Instr} (hword : word = encode j)
    (ho : o = some i → c = encode i) (h : (if c = word then some j else o) = some i) : c = encode i := by
  by_cases hc : c = word
  · rw [if_pos hc, Option.some_inj] at h
    rw [hc, hword, h]
  · rw [if_neg hc] at h
    exact ho h

theorem eq_encode_of_decodeWord {c : BitVec 32} {i : Instr} : decodeWord c = some i → c = encode i := by
  unfold decodeWord
  iterate 10 refine eq_encode_of_ite rfl ?_
  exact nofun

/-- A value that decodes to a command is the value the command is issued by (30_encoding.md R56, R60). -/
theorem eq_cmdValue_of_decode {v : Limb} {i : Instr} (h : decode v = .ok i) : v = cmdValue i := by
  unfold decode at h
  split at h
  · cases h
  next hupper =>
    split at h
    next hword =>
      cases h
      have hv : v.extractLsb' 32 32 ++ v.extractLsb' 0 32 = v :=
        (BitVec.extractLsb'_append_extractLsb'_eq_extractLsb' (start₁ := 0) (len₁ := 32) (len₂ := 32) rfl).trans
          BitVec.extractLsb'_eq_self
      rw [← hv, not_not.1 hupper, eq_encode_of_decodeWord hword, cmdValue]
    · cases h

theorem opcodeByte_cmdValue (i : Instr) : opcodeByte (cmdValue i) = opcodeOf i := by
  have hlegal : Laws.LegalWord.Statement i := by
    cases i
    exacts [Laws.LegalWord.setkey, Laws.LegalWord.clear, Laws.LegalWord.update, Laws.LegalWord.sum, Laws.LegalWord.save,
      Laws.LegalWord.load, Laws.LegalWord.clmul00, Laws.LegalWord.clmul11, Laws.LegalWord.fmul, Laws.LegalWord.double]
  exact hlegal.2

end Sys2Proof.Machine
end

section
/-! What every command leaves alone and how its end shows in STATUS (10_state.md R26, R28 to R31); from that and the window
above, what every step but power-on reset leaves alone (R22, R27, R34). -/

namespace Sys2Proof.Machine

/-- The four writes a completing command can make, each with the commands that make it. -/
theorem Wrote.cases {i : Instr} {s u : State} (h : Wrote i s u) :
    ((i = .setkey ∨ i = .load) ∧ ∃ k p v, u = s.setContext k p v) ∨
    ((i = .clear ∨ i = .update) ∧ ∃ v, u = s.setHash v) ∨
    ((i = .sum ∨ i = .clmul00 ∨ i = .clmul11 ∨ i = .fmul ∨ i = .double) ∧ ∃ r, u = s.setRes r) ∨
    (i = .save ∧ ∃ a bs, u = s.memWrite a bs) := by
  cases i with
  | setkey | load => exact .inl ⟨by simp, h⟩
  | clear | update => exact .inr (.inl ⟨by simp, h⟩)
  | sum | clmul00 | clmul11 | fmul | double => exact .inr (.inr (.inl ⟨by simp, h⟩))
  | save => exact .inr (.inr (.inr ⟨rfl, h⟩))

/-- Settles O21: a command that ends has made none or one of the four writes, and each changes only its own registers. -/
theorem commandFrame : Obligations.CommandFrame := by
  intro i s t h
  obtain ⟨code, u, rfl, rfl | ⟨-, hwrote⟩⟩ := exec_ended h
  · simp
  obtain ⟨hi, k, p, v, rfl⟩ | ⟨hi, v, rfl⟩ | ⟨hi, r, rfl⟩ | ⟨rfl, a, bs, rfl⟩ := hwrote.cases
  · obtain rfl | rfl := hi <;> simp
  · obtain rfl | rfl := hi <;> simp
  · obtain rfl | rfl | rfl | rfl | rfl := hi <;> simp
  · simp

/-- A command never clears KV (R31). -/
theorem exec_kv_of_kv {i : Instr} {s t : State} (h : exec i s = .next t) (hkv : s.kv = true) : t.kv = true := by
  obtain ⟨code, u, rfl, rfl | ⟨-, hwrote⟩⟩ := exec_ended h
  · exact hkv
  obtain ⟨-, k, p, v, rfl⟩ | ⟨-, v, rfl⟩ | ⟨-, r, rfl⟩ | ⟨-, a, bs, rfl⟩ := hwrote.cases
  · rfl
  all_goals exact hkv

/-- What a command writes into STATUS when it ends (R26). -/
theorem exec_status {i : Instr} {s t : State} (h : exec i s = .next t) :
    t.lastOp = opcodeOf i ∧ t.ef = efAfter s.ef t.err := by
  obtain ⟨code, u, rfl, rfl | ⟨-, hwrote⟩⟩ := exec_ended h
  · exact ⟨rfl, rfl⟩
  obtain ⟨-, k, p, v, rfl⟩ | ⟨-, v, rfl⟩ | ⟨-, r, rfl⟩ | ⟨-, a, bs, rfl⟩ := hwrote.cases
  all_goals exact ⟨rfl, rfl⟩

/-- What a write to CMD that ends, a legal or an illegal one, writes into STATUS (R26). -/
theorem State.issue_status {v : Limb} {s t : State} (h : s.issue v = .next t) :
    t.lastOp = opcodeByte v ∧ t.ef = efAfter s.ef t.err := by
  obtain ⟨u, access, rfl, ⟨i, hdecode, hexec⟩ | rfl⟩ := State.issue_next h
  · have hu := exec_status hexec
    rw [eq_cmdValue_of_decode hdecode, opcodeByte_cmdValue]
    exact hu
  · exact ⟨rfl, rfl⟩

/-- No command changes CAP or the backend (R27, R34). -/
theorem State.issue_sampled {v : Limb} {s t : State} (h : s.issue v = .next t) :
    t.capClmul = s.capClmul ∧ t.capXor3 = s.capXor3 ∧ t.be = s.be := by
  obtain ⟨u, access, rfl, ⟨i, -, hexec⟩ | rfl⟩ := State.issue_next h
  · obtain ⟨-, hsampled, -⟩ := commandFrame i s u hexec
    exact hsampled
  · exact ⟨rfl, rfl, rfl⟩

/-- Only power-on reset changes CAP or the backend (R27, R34). -/
theorem step_sampled {s t : State} {op : HostOp} {rest : List HostOp} (hin : s.inputs = op :: rest) (h : step s = .next t)
    (hop : ∀ c x, op ≠ .powerOn c x) : t.capClmul = s.capClmul ∧ t.capXor3 = s.capXor3 ∧ t.be = s.be := by
  obtain ⟨v, -, hissue⟩ | hguarded := step_next hin h hop
  · have hsampled := State.issue_sampled hissue
    exact hsampled
  · exact ⟨State.eq_of_guarded State.capClmul (fun _ => rfl) hguarded,
      State.eq_of_guarded State.capXor3 (fun _ => rfl) hguarded, State.eq_of_guarded State.be (fun _ => rfl) hguarded⟩

/-- H and POW change only by a SETKEY or a LOAD (R28, R29). -/
theorem State.issue_key {v : Limb} {s t : State} (h : s.issue v = .next t) (hkey : t.hKey ≠ s.hKey ∨ t.pow ≠ s.pow) :
    v = 0x01 ∨ v = 0x06 := by
  obtain ⟨u, access, rfl, ⟨i, hdecode, hexec⟩ | rfl⟩ := State.issue_next h
  · obtain ⟨-, -, -, hframe, -⟩ := commandFrame i s u hexec
    rw [eq_cmdValue_of_decode hdecode]
    by_cases hsetkey : i = .setkey
    · subst hsetkey
      exact .inl rfl
    · by_cases hload : i = .load
      · subst hload
        exact .inr rfl
      · obtain ⟨hh, hp, -⟩ := hframe hsetkey hload
        simp [hh, hp] at hkey
  · simp at hkey

/-- A write to CMD never clears KV (R31). -/
theorem State.issue_kv_of_kv {v : Limb} {s t : State} (h : s.issue v = .next t) (hkv : s.kv = true) : t.kv = true := by
  obtain ⟨u, access, rfl, ⟨i, -, hexec⟩ | rfl⟩ := State.issue_next h
  · have hu := exec_kv_of_kv hexec hkv
    exact hu
  · exact hkv

/-- Settles O14: a host access leaves the core alone, and a command keeps KV, EF, the backend and CAP. -/
theorem onlyPowerOnDiscards : Obligations.OnlyPowerOnDiscards := by
  intro s t op rest hin h hop
  obtain ⟨hclmul, hxor3, hbe⟩ := step_sampled hin h hop
  obtain ⟨v, rfl, hissue⟩ | hguarded := step_next hin h hop
  · obtain ⟨-, hef⟩ := State.issue_status hissue
    have hkv := State.issue_kv_of_kv hissue
    refine ⟨hkv, fun h => hef.trans (efAfter_sticky h _), hbe, hclmul, hxor3, fun hkey => ?_⟩
    have hv := State.issue_key hissue
    obtain rfl | rfl := hv hkey
    · exact .inl rfl
    · exact .inr rfl
  · have hkv : t.kv = s.kv := State.eq_of_guarded State.kv (fun _ => rfl) hguarded
    have hef : t.ef = s.ef := State.eq_of_guarded State.ef (fun _ => rfl) hguarded
    have hh : t.hKey = s.hKey := State.eq_of_guarded State.hKey (fun _ => rfl) hguarded
    have hp : t.pow = s.pow := State.eq_of_guarded State.pow (fun _ => rfl) hguarded
    simp [hkv, hef, hbe, hclmul, hxor3, hh, hp]

theorem errCode_eq_zero_iff (code : ErrCode) : errCode code = 0 ↔ code = .ok := by
  cases code <;> decide

/-- Settles O16: STATUS is read field by field (R24), and each field is what the end of the command wrote. -/
theorem statusAtEndOfCommand : Obligations.StatusAtEndOfCommand := by
  intro s t v rest hin h
  have hissue : State.issue v { s with inputs := rest } = .next t := (step_input hin).symm.trans h
  obtain ⟨hop, hef⟩ := State.issue_status hissue
  obtain ⟨-, -, hbe⟩ := State.issue_sampled hissue
  obtain ⟨hkv, -, hreserved2, herr, hbackend, -, hreserved10, hlastOp, hreserved24⟩ := statusLayout t
  obtain ⟨-, -, hold2, -, holdBackend, -, hold10, -, hold24⟩ := statusLayout s
  refine ⟨hlastOp.trans hop, herr, errCode_eq_zero_iff t.err, hef, hkv, ?_, ?_, ?_, ?_⟩
  · rw [hbackend, holdBackend, hbe]
  · rw [hreserved2, hold2]
  · rw [hreserved10, hold10]
  · rw [hreserved24, hold24]

/-- Settles O7: the first three clauses are the window's laws, and by what a step can do only a command or power-on reset
changes STATUS and RES, only power-on reset CAP. -/
theorem windowAccessSemantics : Obligations.WindowAccessSemantics := by
  refine ⟨?_, fun s index rest hin => step_input hin, fun s index h => s.readWindow_eq_zero h, ?_, ?_⟩
  · intro s index value rest hin hindex
    refine ⟨_, (step_input hin).trans (State.perform_writeReg hindex _ _), fun j => ?_⟩
    exact State.readWindow_writeWindow ..
  · intro s t op rest hin h hcmd hop
    obtain ⟨v, hv, -⟩ | hguarded := step_next hin h hop
    · exact absurd hv (hcmd v)
    · exact ⟨State.eq_of_guarded State.statusWord (fun _ => rfl) hguarded,
        State.eq_of_guarded State.resLo (fun _ => rfl) hguarded, State.eq_of_guarded State.resHi (fun _ => rfl) hguarded⟩
  · intro s t op rest hin h hop
    obtain ⟨hclmul, hxor3, -⟩ := step_sampled hin h hop
    change t.capWord = s.capWord
    rw [State.capWord, State.capWord, hclmul, hxor3]

/-- Settles O10: CAP's bits, their sampling at power-on reset, and that no other step samples them. -/
theorem capSampledAtPowerOn : Obligations.CapSampledAtPowerOn := by
  refine ⟨fun s k => s.getLsbD_capWord k, fun s c x rest hin => ⟨_, step_input hin, rfl, rfl⟩, ?_⟩
  intro s t op rest hin h hop
  obtain ⟨hclmul, hxor3, -⟩ := step_sampled hin h hop
  exact ⟨hclmul, hxor3⟩

/-- Settles O15: the memory's read-after-write law, at the step of a host access. -/
theorem hostMemoryAccess : Obligations.HostMemoryAccess := by
  refine ⟨fun s a b rest hin hmem => ⟨_, step_input hin, fun x => ?_⟩, fun s a rest hin => step_input hin⟩
  rw [readByte_writeByte (lo := 0) hmem]
  simp [← BitVec.toNat_inj, eq_comm]

end Sys2Proof.Machine
end

section
/-! O23: while KV = 0 nothing shows H, POW or S (10_state.md R32). -/

namespace Sys2Proof.Machine

/-- The state with H, POW and S at their reset values. -/
def State.blankContext (s : State) : State :=
  { s with hKey := 0, pow := ⟨0, 0, 0, 0, 0, 0, 0, 0⟩, hashState := 0 }

theorem hideUnkeyed_of_kv {s : State} (h : s.kv = true) : hideUnkeyed s = s := by simp [hideUnkeyed, h]

theorem hideUnkeyed_of_no_kv {s : State} (h : s.kv = false) : hideUnkeyed s = s.blankContext := by
  simp [hideUnkeyed, h, State.blankContext]

theorem hideUnkeyed_blankContext {s : State} (h : s.kv = false) : hideUnkeyed s.blankContext = hideUnkeyed s := by
  rw [hideUnkeyed_of_no_kv h, hideUnkeyed_of_no_kv (s := s.blankContext) h]
  rfl

/-- Two outcomes that show the same once hidden show the same behind a check. -/
theorem mapNext_ite_congr {c : Prop} [Decidable c] {f : State → State} {o o' p p' : Host.Outcome State Fault Refusal}
    (ho : mapNext f o' = mapNext f o) (hp : mapNext f p' = mapNext f p) :
    mapNext f (if c then o' else p') = mapNext f (if c then o else p) := by
  split
  · exact ho
  · exact hp

/-- The admission of a range does not look at the Context. -/
theorem mapNext_withRange_blankContext {f : State → State} {s : State} {n : Nat}
    {o o' : Host.Outcome State Fault Refusal} (ho : mapNext f o' = mapNext f o) :
    mapNext f (s.blankContext.withRange n o') = mapNext f (s.withRange n o) :=
  mapNext_ite_congr ho rfl

/-- UPDATE, SUM and SAVE need a key (60_exceptions.md R122). -/
theorem exec_no_kv {i : Instr} (hi : i = .update ∨ i = .sum ∨ i = .save) {s : State} (h : s.kv = false) :
    exec i s = s.raiseError .noKey (opcodeOf i) := by
  obtain rfl | rfl | rfl := hi
  all_goals exact if_pos h

/-- A state without a key and its blank show the same after the end of a command. -/
theorem mapNext_endCommand_blankContext {s : State} (h : s.kv = false) (code : ErrCode) (op : Byte) :
    mapNext hideUnkeyed (.next (s.blankContext.endCommand code op)) = mapNext hideUnkeyed (.next (s.endCommand code op)) :=
  congrArg Host.Outcome.next (hideUnkeyed_blankContext (s := s.endCommand code op) h)

theorem exec_blankContext {s : State} (h : s.kv = false) (i : Instr) :
    mapNext hideUnkeyed (exec i s.blankContext) = mapNext hideUnkeyed (exec i s) := by
  have hend := mapNext_endCommand_blankContext h
  have hres (r : FieldElement) := mapNext_endCommand_blankContext (s := s.setRes r) h .ok
  cases i with
  | setkey => exact mapNext_ite_congr (hend _ _) (mapNext_withRange_blankContext (mapNext_ite_congr (hend _ _) rfl))
  | clear => exact mapNext_endCommand_blankContext (s := s.setHash 0) h .ok _
  | load => exact mapNext_ite_congr (hend _ _) (mapNext_withRange_blankContext rfl)
  | update | sum | save =>
    rw [exec_no_kv (by simp) h, exec_no_kv (by simp) (s := s.blankContext) h]
    exact hend _ _
  | clmul00 | clmul11 | fmul | double => exact hres _ _

theorem State.readWindow_blankContext (s : State) (index : BitVec 8) :
    s.blankContext.readWindow index = s.readWindow index := rfl

/-- Settles O23: with a key nothing is hidden, and without one no ending and no read shows what is. -/
theorem unkeyedContextIsHidden : Obligations.UnkeyedContextIsHidden := by
  refine ⟨fun i s => ?_, fun s index => ?_, fun i s h hi => ⟨_, exec_no_kv hi h, rfl⟩⟩
  · cases h : s.kv
    · rw [hideUnkeyed_of_no_kv h, exec_blankContext h]
    · rw [hideUnkeyed_of_kv h]
  · cases h : s.kv
    · rw [hideUnkeyed_of_no_kv h, State.readWindow_blankContext]
    · rw [hideUnkeyed_of_kv h]

end Sys2Proof.Machine
end

section
/-! O60: every step keeps the invariant. -/

namespace Sys2Proof

open Machine

/-- What the invariant says of the memory, the backend and the Context, whatever STATUS says of the last command. -/
structure StoredInv (s : State) : Prop where
  memory : memoryWf s.mem = true
  backend : s.be = selectBackend s.capClmul s.capXor3
  keyless : s.kv = false → s.hKey = 0 ∧ s.pow = ⟨0, 0, 0, 0, 0, 0, 0, 0⟩ ∧ s.hashState = 0

theorem MachineInv.stored {s : State} (h : MachineInv s) : StoredInv s := ⟨h.memory, h.backend, h.keyless⟩

theorem StoredInv.setRes {s : State} (h : StoredInv s) (r : FieldElement) : StoredInv (s.setRes r) :=
  ⟨h.memory, h.backend, h.keyless⟩

theorem StoredInv.setContext {s : State} (h : StoredInv s) (k : FieldElement) (p : KeyPowers) (v : FieldElement) :
    StoredInv (s.setContext k p v) :=
  ⟨h.memory, h.backend, nofun⟩

/-- S is zeroed in any state, and given a value where there is a key. -/
theorem StoredInv.setHash {s : State} (h : StoredInv s) {v : FieldElement} (hv : s.kv = true ∨ v = 0) :
    StoredInv (s.setHash v) := by
  refine ⟨h.memory, h.backend, fun hkv => ?_⟩
  obtain ⟨hkey, hpow, -⟩ := h.keyless hkv
  exact ⟨hkey, hpow, hv.resolve_left (by simpa using hkv)⟩

theorem StoredInv.memWrite {s : State} (h : StoredInv s) (a : Limb) (bs : List Byte) : StoredInv (s.memWrite a bs) :=
  ⟨State.memWrite_memoryWf h.memory a bs, h.backend, h.keyless⟩

/-- The end of a command: any code that the command raises, NoKey only without a key. -/
theorem StoredInv.endCommand {s : State} (h : StoredInv s) {code : ErrCode} {op : Byte}
    (hstatus : statusLegal code op = true) (hkey : code = .noKey → s.kv = false) : MachineInv (s.endCommand code op) :=
  ⟨h.memory, h.backend, fun hcode => efAfter_error hcode _, hstatus, h.keyless, hkey⟩

/-- The next state, if there is one, meets the invariant. -/
def KeepsInv (o : Host.Outcome State Fault Refusal) : Prop := ∀ t, o = .next t → MachineInv t

theorem KeepsInv.next {t : State} (h : MachineInv t) : KeepsInv (.next t) := by
  rintro _ ⟨⟩
  exact h

theorem KeepsInv.fault (f : Fault) : KeepsInv (.fault f) := by
  rintro _ ⟨⟩

theorem KeepsInv.ite {c : Prop} [Decidable c] {o p : Host.Outcome State Fault Refusal} (ho : c → KeepsInv o)
    (hp : ¬ c → KeepsInv p) : KeepsInv (if c then o else p) := by
  split
  · exact ho ‹_›
  · exact hp ‹_›

theorem KeepsInv.withRange {s : State} {n : Nat} {o : Host.Outcome State Fault Refusal} (ho : KeepsInv o) :
    KeepsInv (s.withRange n o) :=
  .ite (fun _ => ho) fun _ => .fault _

/-- Every command keeps the invariant: check by check, each ending writes a legal code over a state whose Context is
blank or has a key. -/
theorem exec_keepsInv {s : State} (h : MachineInv s) (i : Instr) : KeepsInv (exec i s) := by
  have hs := h.stored
  have herr {code : ErrCode} {op : Byte} (hstatus : statusLegal code op = true) (hkey : code ≠ .noKey) :
      KeepsInv (s.raiseError code op) := .next (hs.endCommand hstatus fun h => absurd h hkey)
  have hok {u : State} {op : Byte} (hu : StoredInv u) (hstatus : statusLegal .ok op = true) :
      KeepsInv (u.complete op) := .next (hu.endCommand hstatus nofun)
  have hnoKey {op : Byte} (hstatus : statusLegal .noKey op = true) (hkv : s.kv = false) :
      KeepsInv (s.raiseError .noKey op) := .next (hs.endCommand hstatus fun _ => hkv)
  cases i with
  | setkey =>
    refine .ite (fun _ => herr rfl nofun) fun _ => .withRange ?_
    exact .ite (fun _ => herr rfl nofun) fun _ => hok (hs.setContext ..) rfl
  | clear => exact hok (hs.setHash (.inr rfl)) rfl
  | update =>
    exact .ite (hnoKey rfl) fun hkv => .ite (fun _ => herr rfl nofun) fun _ => .ite (fun _ => hok hs rfl)
      fun _ => .withRange (hok (hs.setHash (.inl (by simpa using hkv))) rfl)
  | sum => exact .ite (hnoKey rfl) fun _ => hok (hs.setRes _) rfl
  | save =>
    exact .ite (hnoKey rfl) fun _ => .ite (fun _ => herr rfl nofun) fun _ => .withRange (hok (hs.memWrite ..) rfl)
  | load => exact .ite (fun _ => herr rfl nofun) fun _ => .withRange (hok (hs.setContext ..) rfl)
  | clmul00 | clmul11 | fmul | double => exact hok (hs.setRes _) rfl

theorem MachineInv.settleRaces {s : State} (h : MachineInv s) (access : Option Access) :
    MachineInv (s.settleRaces access) :=
  ⟨State.settleRaces_memoryWf h.memory access, h.backend, h.sticky, h.status, h.keyless, h.noKey⟩

theorem MachineInv.powerOn {s : State} (h : MachineInv s) (c x : Bool) : MachineInv (s.powerOn c x) :=
  ⟨h.memory, rfl, fun herr => absurd rfl herr, rfl, fun _ => ⟨rfl, rfl, rfl⟩, nofun⟩

theorem MachineInv.issue {s t : State} (h : MachineInv s) {v : Limb} (ht : s.issue v = .next t) : MachineInv t := by
  obtain ⟨u, access, rfl, ⟨i, -, hexec⟩ | rfl⟩ := State.issue_next ht
  · exact (exec_keepsInv h i u hexec).settleRaces access
  · have hend : MachineInv (s.endCommand .illegalCommand (opcodeByte v)) := h.stored.endCommand rfl nofun
    exact hend.settleRaces access

/-- The invariant speaks of the core's registers, which a host access leaves alone, and of the memory's form. -/
theorem MachineInv.of_guarded_eq {s t : State} (h : MachineInv s) (ht : t.guarded = s.guarded)
    (hmem : memoryWf t.mem = true) : MachineInv t := by
  have hguarded : MachineInv t.guarded := ht ▸ ⟨rfl, h.backend, h.sticky, h.status, h.keyless, h.noKey⟩
  exact ⟨hmem, hguarded.backend, hguarded.sticky, hguarded.status, hguarded.keyless, hguarded.noKey⟩

theorem MachineInv.perform {op : HostOp} {s t : State} (h : MachineInv s) (ht : s.perform op = .next t) :
    MachineInv t := by
  obtain ⟨v, -, hissue⟩ | ⟨c, x, -, rfl⟩ | ⟨hguarded, hmem⟩ := State.perform_next ht
  · exact h.issue hissue
  · exact h.powerOn c x
  · exact h.of_guarded_eq hguarded (hmem h.memory)

/-- Settles O60: a waiting core stays as it is, and every input keeps the invariant. -/
theorem invariantKeptByStep : Obligations.InvariantKeptByStep := by
  intro s t h hstep
  unfold step at hstep
  split at hstep
  · cases hstep
    exact h
  next rest _ =>
    have hrest : MachineInv { s with inputs := rest } :=
      ⟨h.memory, h.backend, h.sticky, h.status, h.keyless, h.noKey⟩
    exact hrest.perform hstep

end Sys2Proof
end

section
/-! The host data memory byte by byte: which address a byte of a range has, and what MemRead and MemWrite make of it
(20_memory.md R41 to R44). -/

namespace Sys2Proof.Machine

/-- Byte i of a range lies at (addr + i) mod 2^64 (R41). -/
theorem toNat_byteAddr (a : Limb) (i : Nat) : (byteAddr a i).toNat = (a.toNat + i) % 2 ^ 64 := by
  simp [byteAddr]

/-- The value of bytes given by their index (R42). -/
theorem leValue_map_range (f : Nat → Byte) (n : Nat) :
    leValue ((List.range n).map f) = ∑ i ∈ Finset.range n, (f i).toNat * 2 ^ (8 * i) := by
  induction n with
  | zero => rfl
  | succ n ih =>
    have hweight : 256 ^ n = 2 ^ (8 * n) := (pow_mul 2 8 n).symm
    rw [List.range_succ, List.map_append, leValue_append, ih, Finset.sum_range_succ, List.length_map, List.length_range,
      hweight]
    simp [leValue, mul_comm]

/-- MemRead as a sum over the bytes the core sees (R44). -/
theorem State.memRead_eq_sum (s : State) (a : Limb) (n : Nat) :
    s.memRead a n = ∑ i ∈ Finset.range n, (s.coreByte (byteAddr a i)).toNat * 2 ^ (8 * i) := by
  rw [State.memRead, rangeAddrs, List.map_map, leValue_map_range]
  rfl

/-- A byte of the range reads as the byte stored there. -/
theorem readByte_writeBytes_byteAddr {m : Memory} (h : memoryWf m = true) (a : Limb) {bs : List Byte}
    (hn : bs.length ≤ 2 ^ 64) {i : Nat} (hi : i < bs.length) :
    readByte (writeBytes m a bs) (byteAddr a i).toNat = bs[i] := by
  have hoffset : (byteAddr a i - a).toNat = i := by
    rw [byteAddr, add_sub_cancel_left, BitVec.toNat_ofNat, Nat.mod_eq_of_lt (by omega)]
  simp [readByte_writeBytes h a bs hn, hoffset, hi]

/-- A byte outside the range reads as before. -/
theorem readByte_writeBytes_of_not_inRange {m : Memory} (h : memoryWf m = true) {a : Limb} {bs : List Byte}
    (hn : bs.length ≤ 2 ^ 64) {x : Limb} (hx : inRange a bs.length x = false) :
    readByte (writeBytes m a bs) x.toNat = readByte m x.toNat := by
  rw [readByte_writeBytes h a bs hn, dif_neg (by simpa [inRange] using hx)]

/-- Settles O26: MemRead's sum, and read after write at an address of the range and at any other. -/
theorem memReadAndMemWrite : Obligations.MemReadAndMemWrite := by
  refine ⟨fun s a n hquiet => ?_, fun m a n v hmem hn => ⟨fun i hi => ?_, fun x hx => ?_⟩⟩
  · simp only [State.memRead_eq_sum, State.coreByte_quiet hquiet, toNat_byteAddr]
  · have hread := readByte_writeBytes_byteAddr hmem a (bs := leBytes n v) (i := i) (by simpa using hn) (by simpa using hi)
    rw [← toNat_byteAddr, hread]
    simp [leBytes, Nat.shiftRight_eq_div_pow]
  · refine readByte_writeBytes_of_not_inRange hmem (by simpa using hn) (Bool.eq_false_iff.2 fun hin => ?_)
    rw [length_leBytes, inRange_iff] at hin
    obtain ⟨i, hi, rfl⟩ := hin
    exact hx i hi (toNat_byteAddr a i)

/-- Settles O27: the 16 bytes are the 8 low ones and, above them, the 8 high ones. -/
theorem elementLimbsInMemory : Obligations.ElementLimbsInMemory := by
  intro s a
  have hsplit : s.memRead a 16 = s.memRead a 8 + 256 ^ 8 * s.memRead (a + 8) 8 := s.memRead_add a 8 8
  have hlow := s.memRead_lt a 8
  have hhigh := s.memRead_lt (a + 8) 8
  simp only [lo, hi, State.readElem, BitVec.extractLsb'_toNat, BitVec.toNat_ofNat, Nat.shiftRight_eq_div_pow]
  omega

end Sys2Proof.Machine
end

section
/-! O28: what the settling of pending races leaves in memory (20_memory.md R49; log 9). -/

namespace Sys2Proof.Machine

/-- A byte that no race names is not raced. -/
theorem State.coreByte_of_not_raced {s : State} {x : Limb} (h : ∀ w ∈ s.racing, w.1 ≠ x) :
    s.coreByte x = readByte s.mem x.toNat := by
  have hraced : s.raced x = false := by simpa [State.raced] using h
  simp [State.coreByte, hraced]

/-- What other agents wrote is not seen at an address none of them wrote. -/
theorem readByte_foldr_of_ne {m : Memory} (h : memoryWf m = true) (f : Limb × Byte → Byte) {ws : List (Limb × Byte)}
    {x : Limb} (hx : ∀ w ∈ ws, w.1 ≠ x) :
    readByte (ws.foldr (fun w m => writeByte m w.1.toNat (f w)) m) x.toNat = readByte m x.toNat := by
  induction ws with
  | nil => rfl
  | cons w ws ih =>
    obtain ⟨hw, hws⟩ := List.forall_mem_cons.1 hx
    have hne : w.1.toNat ≠ x.toNat := fun e => hw (BitVec.eq_of_toNat_eq e)
    rw [List.foldr_cons, readByte_writeByte (lo := 0) (memoryWf_foldr h f ws), if_neg hne, ih hws]

/-- Where the command does not write, the other agent's byte stays. -/
theorem racedResult_of_not_written {access : Option Access} {a : Limb}
    (h : ∀ start n, access = some ⟨.write, start, n⟩ → inRange start n a = false) (draw : Nat) (b : Byte) :
    racedResult access draw a b = b := by
  unfold racedResult
  split
  next start n => simp [h start n rfl]
  next => rfl
  next => rfl

/-- Settles O28: an address no race names is passed over, and the newest race is written last. -/
theorem raceReachesOnlyRacedBytes : Obligations.RaceReachesOnlyRacedBytes := by
  refine fun s access hmem => ⟨fun x hx => ⟨State.coreByte_of_not_raced hx, ?_⟩, fun a b ws hracing hfree => ?_⟩
  · exact readByte_foldr_of_ne hmem (fun w => racedResult access s.draw w.1 w.2) hx
  · have hrest := memoryWf_foldr hmem (fun w => racedResult access s.draw w.1 w.2) ws
    rw [State.settleRaces, hracing, List.foldr_cons, readByte_writeByte (lo := 0) hrest, if_pos rfl,
      racedResult_of_not_written hfree]

end Sys2Proof.Machine
end

section
/-! O19: a command ends unless the platform refuses the range it accesses (20_memory.md R45, R46; log 4). -/

namespace Sys2Proof.Machine

/-- The outcome of a command that makes the given access: a next state if the platform admits its range, and the stop for
exactly that range if not. -/
def EndsUnlessRefused (s : State) (access : Option Access) (o : Host.Outcome State Fault Refusal) : Prop :=
  ((∀ a, access = some a → s.memAdmits a.start a.count = true) ∧ ∃ t, o = .next t) ∨
    ∃ a, access = some a ∧ s.memAdmits a.start a.count = false ∧ o = .fault (.rangeNotAdmitted a.start a.count)

/-- A command that accesses no memory ends. -/
theorem EndsUnlessRefused.next (s t : State) : EndsUnlessRefused s none (.next t) := .inl ⟨nofun, t, rfl⟩

/-- A command whose checks have led to its access asks for the range before it ends. -/
theorem EndsUnlessRefused.withRange {s : State} {d : Prop} [Decidable d] (hd : d) {kind : AccessKind} {n : Nat}
    {o : Host.Outcome State Fault Refusal} (ho : ∃ t, o = .next t) :
    EndsUnlessRefused s (if d then some ⟨kind, s.addr, n⟩ else none) (s.withRange n o) := by
  rw [if_pos hd]
  cases h : s.memAdmits s.addr n
  · exact .inr ⟨_, rfl, h, State.withRange_refused h o⟩
  · rw [State.withRange_admitted h]
    refine .inl ⟨?_, ho⟩
    rintro _ ⟨⟩
    exact h

/-- A check that ends the command early: then it makes no access. -/
theorem EndsUnlessRefused.ite {s t : State} {c d : Prop} [Decidable c] [Decidable d] {access : Option Access}
    {o : Host.Outcome State Fault Refusal} (hd : c → ¬ d)
    (ho : ¬ c → EndsUnlessRefused s (if d then access else none) o) :
    EndsUnlessRefused s (if d then access else none) (if c then .next t else o) := by
  by_cases hc : c
  · rw [if_pos hc, if_neg (hd hc)]
    exact .next s t
  · rw [if_neg hc]
    exact ho hc

/-- Either way a check decides, a command that only ends ends. -/
theorem exists_next_ite (c : Prop) [Decidable c] (t u : State) :
    ∃ v, (if c then .next t else .next u : Host.Outcome State Fault Refusal) = .next v := by
  split
  · exact ⟨t, rfl⟩
  · exact ⟨u, rfl⟩

/-- Every command, check by check, ends early without an access or makes the one access of R46. -/
theorem exec_endsUnlessRefused (i : Instr) (s : State) : EndsUnlessRefused s (accessOf i s) (exec i s) := by
  cases i with
  | setkey => exact .ite id fun hlen => .withRange (not_not.1 hlen) (exists_next_ite ..)
  | update =>
    refine .ite (by simp +contextual) fun hkv => .ite (by simp +contextual) fun hmod =>
      .ite (by simp +contextual) fun hlen => ?_
    exact .withRange ⟨by simpa using hkv, not_not.1 hmod, hlen⟩ ⟨_, rfl⟩
  | save =>
    refine .ite (by simp +contextual) fun hkv => .ite (by simp +contextual) fun hlen => ?_
    exact .withRange ⟨by simpa using hkv, not_not.1 hlen⟩ ⟨_, rfl⟩
  | load => exact .ite id fun hlen => .withRange (not_not.1 hlen) ⟨_, rfl⟩
  | sum =>
    obtain ⟨t, ht⟩ := exists_next_ite (s.kv = false) _ _
    exact .inl ⟨nofun, t, ht⟩
  | clear | clmul00 | clmul11 | fmul | double => exact .next s _

/-- Settles O19: whichever way the platform answers decides both sides of each equivalence. -/
theorem commandsEndOrAreStuck : Obligations.CommandsEndOrAreStuck := by
  intro i s
  obtain ⟨hadmits, t, hexec⟩ | ⟨a, haccess, hrefused, hexec⟩ := exec_endsUnlessRefused i s
  · rw [hexec]
    refine ⟨⟨fun _ => hadmits, fun _ => ⟨t, rfl⟩⟩, fun f => ⟨nofun, ?_⟩, nofun⟩
    rintro ⟨a, haccess, hrefused, -⟩
    exact absurd (hadmits a haccess) (Bool.eq_false_iff.1 hrefused)
  · rw [hexec, haccess]
    refine ⟨⟨?_, fun h => ?_⟩, fun f => ?_, nofun⟩
    · rintro ⟨t, ⟨⟩⟩
    · exact absurd (h a rfl) (Bool.eq_false_iff.1 hrefused)
    · constructor
      · rintro ⟨⟩
        exact ⟨a, rfl, hrefused, rfl⟩
      · rintro ⟨_, ⟨⟩, -, rfl⟩
        rfl

end Sys2Proof.Machine
end

section
/-! O22: what a command does depends on memory only through the bytes of the range it reads (20_memory.md R46, R48). -/

namespace Sys2Proof.Machine

/-- The state with other contents of memory and other races pending. -/
def State.withMemory (m : Memory) (ws : List (Limb × Byte)) (s : State) : State := { s with mem := m, racing := ws }

/-- The state with its memory and pending races blanked. -/
def State.forgetMemory (s : State) : State := { s with mem := [], racing := [] }

@[simp] theorem State.withMemory_addr (m : Memory) (ws : List (Limb × Byte)) (s : State) :
    (s.withMemory m ws).addr = s.addr := rfl
@[simp] theorem State.withMemory_len (m : Memory) (ws : List (Limb × Byte)) (s : State) :
    (s.withMemory m ws).len = s.len := rfl
@[simp] theorem State.withMemory_kv (m : Memory) (ws : List (Limb × Byte)) (s : State) :
    (s.withMemory m ws).kv = s.kv := rfl

/-- As `mapNext_ite_congr`, where what follows a check may use that the check passed. -/
theorem mapNext_ite_of_not {c : Prop} [Decidable c] {f : State → State} {o o' p p' : Host.Outcome State Fault Refusal}
    (ho : mapNext f o' = mapNext f o) (hp : ¬ c → mapNext f p' = mapNext f p) :
    mapNext f (if c then o' else p') = mapNext f (if c then o else p) := by
  split
  · exact ho
  · exact hp ‹_›

/-- The admission of a range does not look at memory. -/
theorem mapNext_withRange_withMemory {f : State → State} {s : State} {m : Memory} {ws : List (Limb × Byte)} {n : Nat}
    {o o' : Host.Outcome State Fault Refusal} (ho : mapNext f o' = mapNext f o) :
    mapNext f ((s.withMemory m ws).withRange n o') = mapNext f (s.withRange n o) :=
  mapNext_ite_congr ho rfl

/-- SAVE's ending shows nothing outside memory of what it writes. -/
theorem complete_memWrite_withMemory (s : State) (m : Memory) (ws : List (Limb × Byte)) (a : Limb) (bs : List Byte)
    (op : Byte) :
    mapNext State.forgetMemory (((s.withMemory m ws).memWrite a bs).complete op) =
      mapNext State.forgetMemory ((s.memWrite a bs).complete op) := rfl

/-- Both states agree on the bytes that the command's range reads. -/
def AgreeOnRead (i : Instr) (s t : State) : Prop :=
  ∀ a, accessOf i s = some a → a.kind = .read → ∀ x, inRange a.start a.count x = true → t.coreByte x = s.coreByte x

theorem AgreeOnRead.coreByte {i : Instr} {s t : State} (h : AgreeOnRead i s t) {start : Limb} {n : Nat}
    (haccess : accessOf i s = some ⟨.read, start, n⟩) {k : Nat} (hk : k < n) :
    t.coreByte (byteAddr start k) = s.coreByte (byteAddr start k) :=
  h _ haccess rfl _ ((inRange_iff start n _).2 ⟨k, hk, rfl⟩)

/-- A command does the same, memory apart, in two states that agree on the bytes it reads. -/
theorem exec_withMemory {i : Instr} {s : State} {m : Memory} {ws : List (Limb × Byte)}
    (h : AgreeOnRead i s (s.withMemory m ws)) :
    mapNext State.forgetMemory (exec i (s.withMemory m ws)) = mapNext State.forgetMemory (exec i s) := by
  cases i with
  | setkey =>
    refine mapNext_ite_of_not rfl fun hlen => mapNext_withRange_withMemory ?_
    have hkey : (s.withMemory m ws).readElem s.addr = s.readElem s.addr :=
      State.readElem_congr fun _ => h.coreByte (if_pos (not_not.1 hlen))
    simp only [State.withMemory_addr, hkey]
    exact mapNext_ite_congr rfl rfl
  | update =>
    refine mapNext_ite_of_not rfl fun hkv => mapNext_ite_of_not rfl fun hmod => mapNext_ite_of_not rfl fun hlen =>
      mapNext_withRange_withMemory ?_
    have haccess : accessOf .update s = some ⟨.read, s.addr, s.len.toNat⟩ :=
      if_pos ⟨by simpa using hkv, not_not.1 hmod, hlen⟩
    have hblocks : (s.withMemory m ws).readBlocks s.addr (s.len.toNat / 16) = s.readBlocks s.addr (s.len.toNat / 16) :=
      State.readBlocks_congr fun k hk => h.coreByte haccess (by omega)
    simp only [State.withMemory_addr, State.withMemory_len, hblocks]
    rfl
  | sum => exact mapNext_ite_congr rfl rfl
  | save =>
    -- Stated apart, so that the check of `rfl` does not compute the 160-byte image.
    have hend := complete_memWrite_withMemory s m ws s.addr (contextImage s) 0x05
    exact mapNext_ite_congr rfl (mapNext_ite_congr rfl (mapNext_withRange_withMemory hend))
  | load =>
    refine mapNext_ite_of_not rfl fun hlen => mapNext_withRange_withMemory ?_
    have himage : (s.withMemory m ws).memRead s.addr 160 = s.memRead s.addr 160 :=
      State.memRead_congr fun _ => h.coreByte (if_pos (not_not.1 hlen))
    simp only [State.withMemory_addr, himage]
    rfl
  | clear | clmul00 | clmul11 | fmul | double => rfl

/-- Settles O22: the two states of the statement agree on the bytes read. -/
theorem onlyTheRangeIsRead : Obligations.OnlyTheRangeIsRead := fun _ _ _ _ h => exec_withMemory h

end Sys2Proof.Machine
end

section
/-! The encoding: a command is decoded from the value it is issued by and from no other (30_encoding.md R56, R59, R60), and
a value is illegal exactly when its fields are (R58, R61). -/

namespace Sys2Proof

open Machine

theorem decode_cmdValue (i : Instr) : decode (cmdValue i) = .ok i := by
  cases i <;> decide

theorem decode_eq_ok_iff (v : Limb) (i : Instr) : decode v = .ok i ↔ v = cmdValue i :=
  ⟨eq_cmdValue_of_decode, fun h => h ▸ decode_cmdValue i⟩

/-- Settles O3: decoding and encoding are inverse, one direction each. -/
theorem decodeEncodeAgree : Obligations.DecodeEncodeAgree :=
  fun i _ => ⟨decode_cmdValue i, fun _ => eq_cmdValue_of_decode⟩

/-- Settles O2: each word of the table is the value its command is issued by. -/
theorem decodeReadsExactlyTheTable : Obligations.DecodeReadsExactlyTheTable := fun v =>
  ⟨decode_eq_ok_iff v .setkey, decode_eq_ok_iff v .clear, decode_eq_ok_iff v .update, decode_eq_ok_iff v .sum,
    decode_eq_ok_iff v .save, decode_eq_ok_iff v .load, decode_eq_ok_iff v .clmul00, decode_eq_ok_iff v .clmul11,
    decode_eq_ok_iff v .fmul, decode_eq_ok_iff v .double⟩

/-- Settles O1: each word of the table is the value its command is issued by. -/
theorem commandWordsDecode : Obligations.CommandWordsDecode :=
  ⟨decode_cmdValue .setkey, decode_cmdValue .clear, decode_cmdValue .update, decode_cmdValue .sum, decode_cmdValue .save,
    decode_cmdValue .load, decode_cmdValue .clmul00, decode_cmdValue .clmul11, decode_cmdValue .fmul,
    decode_cmdValue .double⟩

/-- The fields of the value a command is issued by (R58). -/
def fieldsOf (i : Instr) : CmdFields := ⟨0, 0, immediateOf i, opcodeOf i⟩

theorem splitFields_cmdValue (i : Instr) : splitFields (cmdValue i) = fieldsOf i := by
  cases i <;> rfl

theorem append_splitFields (v : Limb) :
    (splitFields v).upper ++ ((splitFields v).rsv ++ (splitFields v).imm8 ++ (splitFields v).opc) = v := by
  rw [splitFields, BitVec.extractLsb'_append_extractLsb'_eq_extractLsb',
    BitVec.extractLsb'_append_extractLsb'_eq_extractLsb', BitVec.extractLsb'_append_extractLsb'_eq_extractLsb']
  exacts [BitVec.extractLsb'_eq_self, rfl, rfl, rfl]

theorem splitFields_inj {v w : Limb} (h : splitFields v = splitFields w) : v = w := by
  rw [← append_splitFields v, h, append_splitFields]

/-- The opcode map of R59, without the lane selector. -/
theorem CmdFields.opcAssigned_iff (c : CmdFields) : c.opcAssigned = true ↔
    c.opc = 0x01 ∨ c.opc = 0x02 ∨ c.opc = 0x03 ∨ c.opc = 0x04 ∨ c.opc = 0x05 ∨ c.opc = 0x06 ∨ c.opc = 0x10 ∨ c.opc = 0x11 ∨
      c.opc = 0x12 := by
  simp only [opcAssigned, Bool.or_eq_true, Bool.and_eq_true, decide_eq_true_eq]
  bv_omega

/-- What is checked of the fields (R56, R58, R61). -/
theorem CmdFields.wf_iff (c : CmdFields) : c.wf = true ↔
    c.upper = 0 ∧ c.rsv = 0 ∧ c.opcAssigned = true ∧ (c.imm8 = 0x00 ∨ (c.opc = 0x10 ∧ c.imm8 = 0x11)) := by
  have himm : c.immLegal = true ↔ c.imm8 = 0x00 ∨ (c.opc = 0x10 ∧ c.imm8 = 0x11) := by
    by_cases h : c.opc = 0x10#8 <;> simp [immLegal, h]
  simp only [wf, upperZero, rsvZero, himm, Bool.and_eq_true, beq_iff_eq, and_assoc]

/-- The legal fields are those of the ten commands (R59). -/
theorem CmdFields.wf_iff_exists_fieldsOf (c : CmdFields) : c.wf = true ↔ ∃ i, c = fieldsOf i := by
  constructor
  · rw [wf_iff, opcAssigned_iff]
    obtain ⟨upper, rsv, imm8, opc⟩ := c
    rintro ⟨rfl, rfl, hopc, rfl | ⟨rfl, rfl⟩⟩
    · obtain rfl | rfl | rfl | rfl | rfl | rfl | rfl | rfl | rfl := hopc
      exacts [⟨.setkey, rfl⟩, ⟨.clear, rfl⟩, ⟨.update, rfl⟩, ⟨.sum, rfl⟩, ⟨.save, rfl⟩, ⟨.load, rfl⟩, ⟨.clmul00, rfl⟩,
        ⟨.fmul, rfl⟩, ⟨.double, rfl⟩]
    · exact ⟨.clmul11, rfl⟩
  · rintro ⟨i, rfl⟩
    cases i <;> decide

theorem splitFields_wf_iff (v : Limb) : (splitFields v).wf = true ↔ ∃ i, decode v = .ok i := by
  rw [CmdFields.wf_iff_exists_fieldsOf]
  refine exists_congr fun i => ?_
  rw [decode_eq_ok_iff, ← splitFields_cmdValue]
  exact ⟨splitFields_inj, congrArg splitFields⟩

/-- A value is illegal exactly when its fields are. -/
theorem exists_decode_eq_error_iff (v : Limb) : (∃ e, decode v = .error e) ↔ ¬ (splitFields v).wf = true := by
  rw [splitFields_wf_iff]
  cases decode v <;> simp

/-- R61's classes of illegal fields. -/
theorem CmdFields.not_wf_iff (c : CmdFields) : ¬ c.wf = true ↔
    c.upper ≠ 0 ∨ c.rsv ≠ 0 ∨ (c.opc = 0x00 ∨ (0x07 ≤ c.opc.toNat ∧ c.opc.toNat ≤ 0x0F) ∨ 0x13 ≤ c.opc.toNat) ∨
      (c.opc = 0x10 ∧ c.imm8 ≠ 0x00 ∧ c.imm8 ≠ 0x11) ∨ (c.opc ≠ 0x10 ∧ c.imm8 ≠ 0x00) := by
  have hopc : ¬ c.opcAssigned = true ↔
      c.opc = 0x00 ∨ (0x07 ≤ c.opc.toNat ∧ c.opc.toNat ≤ 0x0F) ∨ 0x13 ≤ c.opc.toNat := by
    simp only [opcAssigned, Bool.or_eq_true, Bool.and_eq_true, decide_eq_true_eq]
    bv_omega
  have himm : ¬ (c.imm8 = 0x00 ∨ (c.opc = 0x10 ∧ c.imm8 = 0x11)) ↔
      (c.opc = 0x10 ∧ c.imm8 ≠ 0x00 ∧ c.imm8 ≠ 0x11) ∨ (c.opc ≠ 0x10 ∧ c.imm8 ≠ 0x00) := by tauto
  rw [wf_iff, not_and_or, not_and_or, not_and_or, hopc, himm]

/-- Settles O58: each expansion written out. -/
theorem pseudoInstructionExpansions : Obligations.PseudoInstructionExpansions :=
  fun _ _ _ _ _ => ⟨rfl, rfl, rfl, rfl, rfl, rfl, rfl, rfl⟩

end Sys2Proof
end

section
/-! A write to CMD as a step: the decoded command or IllegalCommand, and around it the settling of the races (30_encoding.md
R57, R61; 60_exceptions.md R123, R124; logs 1, 9). -/

namespace Sys2Proof.Machine

/-- A write to CMD issues a command (30_encoding.md R56). -/
theorem step_cmd {s : State} {v : Limb} {rest : List HostOp} (h : s.inputs = .writeReg 0x00 v :: rest) :
    step s = State.issue v { s with inputs := rest } := step_input h

/-- A legal value runs its command. -/
theorem State.issue_of_decode {v : Limb} {i : Instr} (h : decode v = .ok i) (s : State) :
    s.issue v = afterCommand (accessOf i s) (exec i s) := by
  simp [State.issue, h]

/-- With no race pending, the step around a command adds nothing to it. -/
theorem afterCommand_exec_quiet {s : State} (h : s.racing = []) (i : Instr) (access : Option Access) :
    afterCommand access (exec i s) = exec i s := by
  cases hexec : exec i s with
  | next t =>
    obtain ⟨-, -, ⟨-, -, -, -, hracing, -⟩, -⟩ := commandFrame i s t hexec
    exact congrArg Host.Outcome.next (State.settleRaces_quiet (hracing.trans h) access)
  | fault | refused => rfl

theorem State.issue_of_decode_quiet {v : Limb} {i : Instr} (h : decode v = .ok i) {s : State} (hracing : s.racing = []) :
    s.issue v = exec i s :=
  (State.issue_of_decode h s).trans (afterCommand_exec_quiet hracing i _)

/-- The state after an illegal value v was written to CMD, its races apart (60_exceptions.md R123, R124). -/
def State.afterIllegal (v : Limb) (s : State) : State :=
  { s with err := .illegalCommand, ef := true, lastOp := opcodeByte v }

theorem State.endCommand_illegalCommand (v : Limb) (s : State) :
    s.endCommand .illegalCommand (opcodeByte v) = s.afterIllegal v := by
  rw [State.endCommand, efAfter_error (code := .illegalCommand) nofun, State.afterIllegal]

/-- An illegal value ends with IllegalCommand. -/
theorem State.issue_of_illegal {v : Limb} (h : ∃ e, decode v = .error e) (s : State) :
    s.issue v = .next ((s.afterIllegal v).settleRaces none) := by
  obtain ⟨e, h⟩ := h
  simp [State.issue, h, State.raiseError_eq, afterCommand, State.endCommand_illegalCommand]

/-- Settles O4: the classes are those of the fields, and the step issues the illegal value. -/
theorem illegalCommandsByClass : Obligations.IllegalCommandsByClass := by
  refine fun v => ⟨?_, fun s rest hin hillegal => ?_⟩
  · have hopc : (splitFields v).opc.toNat = v.toNat % 256 := by simp [splitFields]
    rw [exists_decode_eq_error_iff, CmdFields.not_wf_iff, hopc]
    rfl
  · have hstep := (step_cmd hin).trans (State.issue_of_illegal hillegal { s with inputs := rest })
    exact ⟨hstep, fun hracing => hstep.trans
      (congrArg _ (State.settleRaces_quiet (s := State.afterIllegal v { s with inputs := rest }) hracing none))⟩

/-- Settles O5: the step issues the value, and the frame of a command leaves no race to settle where none was pending. -/
theorem stepRunsDecodedCommand : Obligations.StepRunsDecodedCommand := by
  intro s v rest i hin hdecode
  have hissue := State.issue_of_decode hdecode { s with inputs := rest }
  refine ⟨(step_cmd hin).trans (hissue.trans ?_),
    fun hracing => (step_cmd hin).trans (State.issue_of_decode_quiet (s := { s with inputs := rest }) hdecode hracing)⟩
  have haccess : accessOf i { s with inputs := rest } = accessOf i s := rfl
  rw [haccess]
  generalize exec i { s with inputs := rest } = o
  cases o <;> rfl

end Sys2Proof.Machine
end

section
/-! A vector of bits as a polynomial over GF(2) (00_scope.md R15), and the carry-less product as the product of the
operands' polynomials (40_clmul.md R64). -/

namespace Sys2Proof.Machine

open Polynomial

theorem coeff_bitsPoly {w : Nat} (v : BitVec w) (k : Nat) :
    (bitsPoly v).coeff k = if v.getLsbD k then 1 else 0 := by
  simp only [bitsPoly, finsetSum_coeff, apply_ite (coeff · k), coeff_X_pow, coeff_zero]
  rw [Finset.sum_eq_single k, if_pos rfl]
  · intro n _ hnk
    rw [if_neg hnk.symm, ite_self]
  · intro hk
    rw [Finset.mem_range, not_lt] at hk
    rw [BitVec.getLsbD_of_ge v k hk, if_neg Bool.false_ne_true]

theorem bitsPoly_injective {w : Nat} : Function.Injective (bitsPoly (w := w)) := by
  intro u v h
  apply BitVec.eq_of_getLsbD_eq
  intro k _
  have hcoeff := congrArg (coeff · k) h
  simp only [coeff_bitsPoly] at hcoeff
  cases hu : u.getLsbD k <;> cases hv : v.getLsbD k <;> simp [hu, hv] at hcoeff ⊢

@[simp] theorem bitsPoly_zero {w : Nat} : bitsPoly (0 : BitVec w) = 0 := by
  ext k
  simp [coeff_bitsPoly]

@[simp] theorem bitsPoly_eq_zero_iff {w : Nat} (v : BitVec w) : bitsPoly v = 0 ↔ v = 0 :=
  ⟨fun h => bitsPoly_injective (h.trans bitsPoly_zero.symm), fun h => h ▸ bitsPoly_zero⟩

/-- XOR is the addition of polynomials over GF(2). -/
theorem bitsPoly_xor {w : Nat} (u v : BitVec w) : bitsPoly (u ^^^ v) = bitsPoly u + bitsPoly v := by
  ext k
  rw [coeff_add, coeff_bitsPoly, coeff_bitsPoly, coeff_bitsPoly, BitVec.getLsbD_xor]
  cases u.getLsbD k <;> cases v.getLsbD k <;> decide

theorem getLsbD_zeroExtend_shiftLeft (x : Limb) (n : Nat) {k : Nat} (hk : k < 128) :
    (x.zeroExtend 128 <<< n).getLsbD k = (decide (n ≤ k) && x.getLsbD (k - n)) := by
  have hge : (!decide (k < n)) = decide (n ≤ k) := by rw [← decide_not, decide_eq_decide, Nat.not_lt]
  rw [BitVec.getLsbD_shiftLeft, BitVec.zeroExtend, BitVec.getLsbD_setWidth, decide_eq_true hk, Bool.true_and, hge,
    decide_eq_true (Nat.sub_lt_of_lt hk), Bool.true_and]

/-- A shift that loses no bit is the multiplication by a power of x. -/
theorem bitsPoly_zeroExtend_shiftLeft (x : Limb) {n : Nat} (hn : n ≤ 64) :
    bitsPoly (x.zeroExtend 128 <<< n) = bitsPoly x * X ^ n := by
  have hbit (k : Nat) : (x.zeroExtend 128 <<< n).getLsbD k = (decide (n ≤ k) && x.getLsbD (k - n)) := by
    rcases Nat.lt_or_ge k 128 with hk | hk
    · exact getLsbD_zeroExtend_shiftLeft x n hk
    · rw [BitVec.getLsbD_of_ge _ k hk, BitVec.getLsbD_of_ge x (k - n) (by omega), Bool.and_false]
  ext k
  rw [coeff_mul_X_pow', coeff_bitsPoly, coeff_bitsPoly, hbit]
  by_cases hnk : n ≤ k <;> simp [hnk]

/-- R64's running value is the product of x with the n low bits of y. -/
theorem bitsPoly_clmulUpTo (x y : Limb) {n : Nat} (hn : n ≤ 64) :
    bitsPoly (clmulUpTo x y n) =
      bitsPoly x * ∑ k ∈ Finset.range n, if y.getLsbD k then (X : (ZMod 2)[X]) ^ k else 0 := by
  induction n with
  | zero => simp [clmulUpTo]
  | succ n ih =>
    rw [clmulUpTo, bitsPoly_xor, ih (by omega), Finset.sum_range_succ, mul_add]
    split
    · rw [bitsPoly_zeroExtend_shiftLeft x (by omega)]
    · rw [bitsPoly_zero, mul_zero]

/-- The carry-less product is the product of polynomials over GF(2) (40_clmul.md R64). -/
theorem bitsPoly_clmul64 (x y : Limb) : bitsPoly (clmul64 x y) = bitsPoly x * bitsPoly y :=
  bitsPoly_clmulUpTo x y le_rfl

theorem clmul64_comm (x y : Limb) : clmul64 x y = clmul64 y x :=
  bitsPoly_injective (by rw [bitsPoly_clmul64, bitsPoly_clmul64, mul_comm])

/-- The product is 0 only when a factor is: polynomials over a field have no zero divisors (40_clmul.md R66). -/
theorem clmul64_eq_zero_iff (x y : Limb) : clmul64 x y = 0 ↔ x = 0 ∨ y = 0 := by
  rw [← bitsPoly_eq_zero_iff, bitsPoly_clmul64, mul_eq_zero, bitsPoly_eq_zero_iff, bitsPoly_eq_zero_iff]

theorem coeff_bitsPoly_of_lt {w m k : Nat} {v : BitVec w} (hv : v.toNat < 2 ^ m) (hk : m ≤ k) :
    (bitsPoly v).coeff k = 0 := by
  have hlt : v.toNat < 2 ^ k := hv.trans_le (Nat.pow_le_pow_right (by omega) hk)
  rw [coeff_bitsPoly, BitVec.getLsbD, Nat.testBit_lt_two_pow hlt]
  rfl

/-- A product has no bit above the sum of its factors' degrees (40_clmul.md R66). -/
theorem getLsbD_clmul64_of_lt {x y : Limb} {m n k : Nat} (hx : x.toNat < 2 ^ m) (hy : y.toNat < 2 ^ n)
    (hk : m + n ≤ k + 1) : (clmul64 x y).getLsbD k = false := by
  have hcoeff : (bitsPoly (clmul64 x y)).coeff k = 0 := by
    rw [bitsPoly_clmul64, coeff_mul]
    refine Finset.sum_eq_zero fun ij hij => ?_
    have hsum : ij.1 + ij.2 = k := Finset.HasAntidiagonal.mem_antidiagonal.1 hij
    rcases Nat.lt_or_ge ij.1 m with hm | hm
    · rw [coeff_bitsPoly_of_lt hy (by omega), mul_zero]
    · rw [coeff_bitsPoly_of_lt hx hm, zero_mul]
  simpa [coeff_bitsPoly] using hcoeff

/-- Bit 127 of a carry-less product is 0 (40_clmul.md R64). -/
theorem getLsbD_clmul64_top (x y : Limb) : (clmul64 x y).getLsbD 127 = false :=
  getLsbD_clmul64_of_lt x.isLt y.isLt le_rfl

/-- Bit k of R64's running value: the first n bits of y, each paired with the bit of x that it moves to k. -/
theorem getLsbD_clmulUpTo (x y : Limb) {k : Nat} (hk : k < 128) (n : Nat) :
    (clmulUpTo x y n).getLsbD k =
      ((List.range n).map fun i => y.getLsbD i && (decide (i ≤ k) && x.getLsbD (k - i))).foldl xor false := by
  induction n with
  | zero => simp [clmulUpTo]
  | succ n ih =>
    rw [List.range_succ, List.map_append, List.foldl_append, ← ih, clmulUpTo, BitVec.getLsbD_xor, List.map_singleton,
      List.foldl_cons, List.foldl_nil, ← getLsbD_zeroExtend_shiftLeft x n hk]
    cases y.getLsbD n <;> simp

/-- Bit k of the product is the XOR of x[i] & y[j] over i + j = k (40_clmul.md R64). -/
theorem getLsbD_clmul64 (x y : Limb) {k : Nat} (hk : k < 128) :
    (clmul64 x y).getLsbD k =
      ((List.range 64).map fun i => x.getLsbD i && (decide (i ≤ k) && y.getLsbD (k - i))).foldl xor false := by
  rw [clmul64_comm]
  exact getLsbD_clmulUpTo y x hk 64

/-- Settles O29: the product's bits and its highest bit; `ctmul` splits it by definition. -/
theorem clmulBitByBit : Obligations.ClmulBitByBit := fun x y =>
  ⟨fun _ hk => getLsbD_clmul64 x y hk, getLsbD_clmul64_top x y, rfl, rfl⟩

end Sys2Proof.Machine
end

section
/-! The laws of ctmul (40_clmul.md R66): those of the 128-bit product, limb by limb. -/

namespace Sys2Proof.Machine

theorem ctmul_comm (x y : Limb) : ctmul x y = ctmul y x := by
  rw [ctmul, clmul64_comm, ctmul]

theorem ctmul_eq_zero_iff (x y : Limb) : ctmul x y = (0, 0) ↔ x = 0 ∨ y = 0 := by
  rw [← clmul64_eq_zero_iff, ctmul, Prod.mk.injEq]
  constructor
  · rintro ⟨hhi, hlo⟩
    rw [← limbs_hi_lo (clmul64 x y), hhi, hlo]
    rfl
  · intro h
    rw [h]
    exact ⟨rfl, rfl⟩

theorem ctmul_zero_left (y : Limb) : ctmul 0 y = (0, 0) := (ctmul_eq_zero_iff 0 y).2 (.inl rfl)

theorem ctmul_zero_right (x : Limb) : ctmul x 0 = (0, 0) := (ctmul_eq_zero_iff x 0).2 (.inr rfl)

/-- 1 is x^0, so the product with it is a shift by 0. -/
theorem ctmul_one_left (y : Limb) : ctmul 1 y = (0, y) := by
  have hone : (1 : Limb) = BitVec.twoPow 64 0 := rfl
  rw [ctmul_comm, ctmul, hone, clmul64_twoPow y (by omega), hi_zeroExtend_shiftLeft y (by omega),
    lo_zeroExtend_shiftLeft, BitVec.ushiftRight_eq_zero le_rfl, BitVec.shiftLeft_zero]
  rfl

theorem ctmul_xor_right (x y z : Limb) :
    ctmul x (y ^^^ z) = ((ctmul x y).1 ^^^ (ctmul x z).1, (ctmul x y).2 ^^^ (ctmul x z).2) := by
  simp only [ctmul, clmul64_xor_right, hi_xor, lo_xor]

theorem getLsbD_ctmul_fst (x y : Limb) {k : Nat} (hk : k < 64) :
    (ctmul x y).1.getLsbD k = (clmul64 x y).getLsbD (64 + k) := by
  simp [ctmul, hi, hk]

/-- The high limb is 0 when the degrees of the factors add up to less than 64 (40_clmul.md R66). -/
theorem ctmul_fst_eq_zero_of_lt {x y : Limb} {m n : Nat} (hx : x.toNat < 2 ^ m) (hy : y.toNat < 2 ^ n)
    (hmn : m + n ≤ 65) : (ctmul x y).1 = 0 := by
  apply BitVec.eq_of_getLsbD_eq
  intro k hk
  rw [getLsbD_ctmul_fst x y hk, getLsbD_clmul64_of_lt hx hy (by omega)]
  exact BitVec.getLsbD_zero.symm

/-- Settles O30, law by law. -/
theorem clmulLaws : Obligations.ClmulLaws := fun x y z =>
  ⟨ctmul_comm x y, ctmul_zero_left y, ctmul_one_left y, (ctmul_xor_right x y z).symm, ctmul_eq_zero_iff x y,
    fun _ hn => clmul64_twoPow x (Nat.lt_succ_of_le hn), fun _ _ => ctmul_fst_eq_zero_of_lt⟩

end Sys2Proof.Machine
end

section
/-! The bit-sliced multiplier (40_clmul.md R67) and the commands CLMUL00 and CLMUL11 (R73, R74). -/

namespace Sys2Proof.Machine

/-- Settles O32: the masks bit by bit, and the carry argument of R68, both proved for O49. -/
theorem portableMultiplierExact : Obligations.PortableMultiplierExact :=
  ⟨fun _ hs => ⟨fun _ => getLsbD_stripeMask hs, fun _ => getLsbD_resultMask hs⟩, clmulPortable_eq_clmul64⟩

/-- A command that ends well with a result writes RES, ERR and LASTOP, and nothing else. -/
theorem State.complete_setRes (r : FieldElement) (op : Byte) (s : State) :
    (s.setRes r).complete op = .next { s with resHi := hi r, resLo := lo r, err := .ok, lastOp := op } := by
  rw [State.complete_eq, State.endCommand, efAfter_ok, State.setRes]

/-- The examples of R73 and R74. -/
theorem ctmul_examples :
    ctmul 0xFFFFFFFFFFFFFFFF 0xFFFFFFFFFFFFFFFF = (0x5555555555555555, 0x5555555555555555) ∧
    ctmul 3 3 = (0, 5) ∧
    ctmul 0x8000000000000000 0x8000000000000000 = (0x4000000000000000, 0) ∧
    ctmul 0xC200000000000000 0xC200000000000000 = (0x5004000000000000, 0) := by
  decide

/-- Settles O31: each command ends well with its product as the result; the corner cases are laws of `ctmul`. -/
theorem clmulCommands : Obligations.ClmulCommands :=
  ⟨fun s => ⟨State.complete_setRes (clmul64 s.opaLo s.opbLo) 0x10 s,
      State.complete_setRes (clmul64 s.opaHi s.opbHi) 0x10 s⟩,
    fun x => ⟨ctmul_zero_right x, ctmul_zero_left x, ctmul_one_left x⟩,
    fun x y => (getLsbD_ctmul_fst x y (by omega)).trans (getLsbD_clmul64_top x y),
    ctmul_examples⟩

end Sys2Proof.Machine
end

section
/-! The limbs of a value as polynomials over GF(2) (00_scope.md R14, R15), and kara as the full carry-less product
(41_fmul.md R75, R76). -/

namespace Sys2Proof.Machine

open Polynomial

/-- Polynomials over GF(2) have characteristic 2: the fact that cancels the terms an identity has twice. -/
theorem poly_two_eq_zero : (2 : (ZMod 2)[X]) = 0 := CharTwo.two_eq_zero

theorem bitsPoly_append {m n : Nat} (h : BitVec m) (l : BitVec n) :
    bitsPoly (h ++ l) = bitsPoly h * X ^ n + bitsPoly l := by
  ext k
  rw [coeff_add, coeff_mul_X_pow', coeff_bitsPoly, coeff_bitsPoly, coeff_bitsPoly, BitVec.getLsbD_append]
  rcases Nat.lt_or_ge k n with hk | hk
  · simp [hk, Nat.not_le.2 hk]
  · simp [hk, Nat.not_lt.2 hk]

theorem bitsPoly_limbs (h l : Limb) : bitsPoly (limbs h l) = bitsPoly h * X ^ 64 + bitsPoly l := bitsPoly_append h l

theorem bitsPoly_eq_hi_lo (e : FieldElement) : bitsPoly e = bitsPoly (hi e) * X ^ 64 + bitsPoly (lo e) := by
  rw [← bitsPoly_limbs, limbs_hi_lo]

theorem bitsPoly_twoPow {w n : Nat} (hn : n < w) : bitsPoly (BitVec.twoPow w n) = X ^ n := by
  ext k
  rw [coeff_bitsPoly, coeff_X_pow, BitVec.getLsbD_twoPow]
  simp [hn, eq_comm]

theorem bitsPoly_one {w : Nat} (hw : 0 < w) : bitsPoly (1 : BitVec w) = 1 := by
  rw [← pow_zero X, ← bitsPoly_twoPow hw, BitVec.twoPow_zero]
  rfl

theorem widePoly_eq (x : Wide) :
    widePoly x = bitsPoly x.x3 * X ^ 192 + bitsPoly x.x2 * X ^ 128 + bitsPoly x.x1 * X ^ 64 + bitsPoly x.x0 := by
  rw [widePoly, bitsPoly_append, bitsPoly_append, bitsPoly_append]
  ring

/-- The assembled limbs are H·x^128 + (M + H + L)·x^64 + L (41_fmul.md R76), for any three products. -/
theorem widePoly_assemble (t : Triple) :
    widePoly (assemble t) =
      bitsPoly t.h * X ^ 128 + (bitsPoly t.m + bitsPoly t.h + bitsPoly t.l) * X ^ 64 + bitsPoly t.l := by
  rw [widePoly_eq, bitsPoly_eq_hi_lo t.h, bitsPoly_eq_hi_lo t.m, bitsPoly_eq_hi_lo t.l]
  simp only [assemble, bitsPoly_xor]
  ring

/-- Karatsuba's identity over GF(2): the middle term M + H + L is a1·b0 + a0·b1 (41_fmul.md R76). -/
theorem widePoly_kara (a b : FieldElement) : widePoly (kara a b) = bitsPoly a * bitsPoly b := by
  rw [kara, widePoly_assemble, bitsPoly_eq_hi_lo a, bitsPoly_eq_hi_lo b]
  simp only [karaTriple, bitsPoly_clmul64, bitsPoly_xor]
  linear_combination
    (bitsPoly (hi a) * bitsPoly (hi b) + bitsPoly (lo a) * bitsPoly (lo b)) * X ^ 64 * poly_two_eq_zero

/-- Bit 255 of kara is bit 127 of the product of the high limbs (41_fmul.md R76). -/
theorem getLsbD_kara_x3_top (a b : FieldElement) : (kara a b).x3.getLsbD 63 = false :=
  (getLsbD_ctmul_fst (hi a) (hi b) (by omega)).trans (getLsbD_clmul64_top _ _)

theorem kara_comm (a b : FieldElement) : kara a b = kara b a := by
  simp only [kara, karaTriple, clmul64_comm]

theorem karaTriple_xor_right (a b c : FieldElement) :
    karaTriple clmul64 a (b ^^^ c) = tripleXor (karaTriple clmul64 a b) (karaTriple clmul64 a c) := by
  have hmiddle : hi b ^^^ hi c ^^^ (lo b ^^^ lo c) = hi b ^^^ lo b ^^^ (hi c ^^^ lo c) := by ac_rfl
  simp only [karaTriple, tripleXor, hi_xor, lo_xor, hmiddle, clmul64_xor_right]

/-- Settles O33: assembly is limb by limb an XOR of halves of the three products, so kara distributes as they do. -/
theorem karatsubaIsTheFullProduct : Obligations.KaratsubaIsTheFullProduct := by
  intro a b c
  refine ⟨widePoly_kara a b, getLsbD_kara_x3_top a b, kara_comm a b, ?_⟩
  simp only [kara, karaTriple_xor_right, assemble, tripleXor, hi_xor, lo_xor, true_and, and_true]
  constructor <;> ac_rfl

end Sys2Proof.Machine
end

section
/-! Gueron's reduction is the Montgomery reduction modulo P (41_fmul.md R77, R78), read in the ring GF(2)[x]/P. -/

namespace Sys2Proof.Machine

open Polynomial

theorem bitsPoly_redConst : bitsPoly redConst = X ^ 63 + X ^ 62 + X ^ 57 := by
  have h63 := bitsPoly_twoPow (show 63 < 64 by omega)
  have h62 := bitsPoly_twoPow (show 62 < 64 by omega)
  have h57 := bitsPoly_twoPow (show 57 < 64 by omega)
  rw [redConst_eq_xor_twoPow, bitsPoly_xor, bitsPoly_xor, h63, h62, h57]

/-- P = x^128 + c·x^64 + 1, where c is RED_CONST (41_fmul.md R78). -/
theorem polyP_eq : polyP = X ^ 128 + bitsPoly redConst * X ^ 64 + 1 := by
  rw [bitsPoly_redConst]
  unfold polyP
  ring

theorem polyP_monic : polyP.Monic := by
  unfold polyP
  monicity!

theorem natDegree_polyP : polyP.natDegree = 128 := by
  unfold polyP
  compute_degree!

/-- R78's argument: X + (X0 + B0·x^64)·P has its two low limbs clear, and the two high ones are the limbs of mred(X). -/
theorem bitsPoly_mred_mul (x : Wide) :
    bitsPoly (mred x) * X ^ 128 =
      widePoly x + (bitsPoly x.x0 + bitsPoly (x.x1 ^^^ lo (clmul64 x.x0 redConst)) * X ^ 64) * polyP := by
  have hA := bitsPoly_eq_hi_lo (clmul64 x.x0 redConst)
  have hC := bitsPoly_eq_hi_lo (clmul64 (x.x1 ^^^ lo (clmul64 x.x0 redConst)) redConst)
  rw [bitsPoly_clmul64, bitsPoly_xor] at hC
  rw [bitsPoly_clmul64] at hA
  rw [polyP_eq, widePoly_eq]
  simp only [mred, mredFold, bitsPoly_limbs, bitsPoly_xor]
  linear_combination (-X ^ 64) * hA - X ^ 128 * hC -
    (bitsPoly x.x0 + bitsPoly x.x1 * X ^ 64 + bitsPoly (lo (clmul64 x.x0 redConst)) * X ^ 64) * poly_two_eq_zero

theorem congruentModP_iff (a b : (ZMod 2)[X]) :
    CongruentModP a b ↔ AdjoinRoot.mk polyP a = AdjoinRoot.mk polyP b := by
  rw [AdjoinRoot.mk_eq_mk, CongruentModP]

/-- The element of GF(2)[x]/P that a field element stands for (00_scope.md R15). -/
noncomputable def residue (e : FieldElement) : AdjoinRoot polyP := AdjoinRoot.mk polyP (bitsPoly e)

theorem residue_xor (a b : FieldElement) : residue (a ^^^ b) = residue a + residue b := by
  rw [residue, bitsPoly_xor, map_add, residue, residue]

theorem residue_zero : residue 0 = 0 := by rw [residue, bitsPoly_zero, map_zero]

theorem residue_one : residue 1 = 1 := by rw [residue, bitsPoly_one (by omega), map_one]

theorem degree_bitsPoly_lt {w : Nat} (v : BitVec w) : (bitsPoly v).degree < w :=
  (degree_lt_iff_coeff_zero _ w).2 fun _ hk => coeff_bitsPoly_of_lt v.isLt hk

theorem degree_bitsPoly_lt_polyP (e : FieldElement) : (bitsPoly e).degree < polyP.degree := by
  rw [degree_eq_natDegree polyP_monic.ne_zero, natDegree_polyP]
  exact degree_bitsPoly_lt e

/-- Field elements have degree below 128, so only 0 is divisible by P. -/
theorem residue_eq_zero_iff (e : FieldElement) : residue e = 0 ↔ e = 0 := by
  refine ⟨fun h => ?_, fun h => h ▸ residue_zero⟩
  by_contra hne
  have hpoly : bitsPoly e ≠ 0 := mt (bitsPoly_eq_zero_iff e).1 hne
  rw [residue] at h
  exact AdjoinRoot.mk_ne_zero_of_degree_lt polyP_monic hpoly (degree_bitsPoly_lt_polyP e) h

theorem residue_injective : Function.Injective residue := by
  intro a b h
  have hzero : residue (a ^^^ b) = 0 := by
    rw [residue_xor, ← h, ← residue_xor, BitVec.xor_self]
    exact residue_zero
  exact BitVec.xor_eq_zero_iff.1 ((residue_eq_zero_iff _).1 hzero)

/-- The class of x^128, the Montgomery factor. -/
noncomputable def montFactor : AdjoinRoot polyP := AdjoinRoot.mk polyP (X ^ 128)

/-- mred(X) is X·x^−128 modulo P (41_fmul.md R78). -/
theorem residue_mred_mul (x : Wide) : residue (mred x) * montFactor = AdjoinRoot.mk polyP (widePoly x) := by
  rw [residue, montFactor, ← map_mul, bitsPoly_mred_mul, map_add, map_mul _ _ polyP, AdjoinRoot.mk_self, mul_zero,
    add_zero]

/-- x^−128 mod P is what the reduction makes of 1 (41_fmul.md R78). -/
theorem mred_one : mred ⟨0, 0, 0, 1⟩ = 0x92040000000000000000000000000001 := by decide

theorem residue_inverse_mul : residue 0x92040000000000000000000000000001 * montFactor = 1 := by
  rw [← mred_one, residue_mred_mul, widePoly_eq, bitsPoly_zero, bitsPoly_one (by omega)]
  simp

theorem isUnit_montFactor : IsUnit montFactor := .of_mul_eq_one_right _ residue_inverse_mul

/-- A field element is known by its product with x^128, which is invertible modulo P. -/
theorem residue_mul_montFactor_inj {a b : FieldElement} (h : residue a * montFactor = residue b * montFactor) : a = b :=
  residue_injective (isUnit_montFactor.mul_right_cancel h)

theorem congruentModP_montgomery_iff (e : FieldElement) (a : (ZMod 2)[X]) :
    CongruentModP (bitsPoly e * X ^ 128) a ↔ residue e * montFactor = AdjoinRoot.mk polyP a := by
  rw [congruentModP_iff, map_mul, residue, montFactor]

/-- Settles O34: what mred(X) times x^128 is congruent to, and no other element is, because x^128 is invertible. -/
theorem reductionIsMontgomery : Obligations.ReductionIsMontgomery := by
  refine ⟨fun x e => ?_, ?_⟩
  · rw [congruentModP_montgomery_iff, ← residue_mred_mul]
    exact ⟨fun h => h ▸ rfl, residue_mul_montFactor_inj⟩
  · rw [congruentModP_montgomery_iff, residue_inverse_mul, map_one]

/-- Settles O35: the portable backend's reduction, as proved for O49. -/
theorem reductionsAgree : Obligations.ReductionsAgree := sxred_eq_mred

end Sys2Proof.Machine
end

section
/-! The Montgomery product fmul (41_fmul.md R81, R83) and the command FMUL (R86): each law is read in GF(2)[x]/P. -/

namespace Sys2Proof.Machine

open Polynomial

/-- fmul(a, b) is a·b·x^−128 modulo P (41_fmul.md R81). -/
theorem residue_fmul_mul (a b : FieldElement) : residue (fmul a b) * montFactor = residue a * residue b := by
  rw [fmul, residue_mred_mul, widePoly_kara, map_mul, residue, residue]

theorem fmul_eq_iff (a b e : FieldElement) : fmul a b = e ↔ residue a * residue b = residue e * montFactor := by
  rw [← residue_fmul_mul]
  exact ⟨fun h => h ▸ rfl, residue_mul_montFactor_inj⟩

/-- Settles O36: kara is the full product, and mred takes x^128 out of it. -/
theorem fmulIsMontgomeryProduct : Obligations.FmulIsMontgomeryProduct := fun a b =>
  ⟨rfl, by rw [congruentModP_montgomery_iff, residue_fmul_mul, map_mul, residue, residue]⟩

theorem fmul_comm (a b : FieldElement) : fmul a b = fmul b a := by
  rw [fmul, kara_comm, fmul]

/-- Both sides times x^256 are a·b·c. -/
theorem fmul_assoc (a b c : FieldElement) : fmul (fmul a b) c = fmul a (fmul b c) := by
  rw [fmul_eq_iff, residue_fmul_mul]
  apply isUnit_montFactor.mul_right_cancel
  linear_combination residue c * residue_fmul_mul a b - residue a * residue_fmul_mul b c

theorem fmul_xor_right (a b c : FieldElement) : fmul a (b ^^^ c) = fmul a b ^^^ fmul a c := by
  rw [fmul_eq_iff, residue_xor, residue_xor, mul_add, add_mul, residue_fmul_mul, residue_fmul_mul]

theorem fmul_zero_left (b : FieldElement) : fmul 0 b = 0 := by
  rw [fmul_eq_iff, residue_zero, zero_mul, zero_mul]

/-- ONE_M = x^128 mod P: x^128 + ONE_M is P itself (41_fmul.md R83). -/
theorem residue_oneM : residue 0xC2000000000000000000000000000001 = montFactor := by
  have hlimbs : 0xC2000000000000000000000000000001 = limbs redConst 1 := rfl
  rw [residue, montFactor, hlimbs, bitsPoly_limbs, bitsPoly_one (by omega)]
  refine AdjoinRoot.mk_eq_mk.2 ⟨1, ?_⟩
  linear_combination -polyP_eq - X ^ 128 * poly_two_eq_zero

theorem fmul_oneM_left (b : FieldElement) : fmul 0xC2000000000000000000000000000001 b = b := by
  rw [fmul_eq_iff, residue_oneM, mul_comm]

/-- The element 1 is no identity: its product with itself is x^−128 mod P (41_fmul.md R83). -/
theorem fmul_one_one : fmul 1 1 = 0x92040000000000000000000000000001 := by
  rw [fmul_eq_iff, residue_inverse_mul, residue_one, mul_one]

/-- Settles O37, law by law. -/
theorem fmulRingLaws : Obligations.FmulRingLaws := fun a b c =>
  ⟨fmul_comm a b, fmul_assoc a b c, fmul_xor_right a b c, fmul_zero_left b, fmul_oneM_left b,
    (congruentModP_iff _ _).2 residue_oneM, fmul_one_one⟩

/-- The corner case of all ones and the example of R86. -/
theorem fmul_examples :
    fmul 0xFFFFFFFFFFFFFFFFFFFFFFFFFFFFFFFF 0xFFFFFFFFFFFFFFFFFFFFFFFFFFFFFFFF = 0x7A015555555555555555555555555555 ∧
    fmul 0x62A2012DBB621740B6DF838C66954F4F 0x7B754BBA26F8311D7642925847936225 = 0x776D08511501169C9850FF3745C6DACE := by
  decide

/-- Settles O38: the command ends well with the field product as its result; the corner cases are laws of fmul. -/
theorem fmulCommand : Obligations.FmulCommand :=
  ⟨fun s => State.complete_setRes (fmul s.opA s.opB) 0x11 s,
    fun b => ⟨fmul_zero_left b, (fmul_comm b 0).trans (fmul_zero_left b), fmul_oneM_left b⟩,
    fmul_comm, fmul_one_one, fmul_examples⟩

end Sys2Proof.Machine
end

section
/-! Doubling (42_double_powers.md R87 to R89): it is the multiplication by x in GF(2)[x]/P, where each of its laws is
read; and the command DOUBLE (R91). -/

namespace Sys2Proof.Machine

open Polynomial

theorem getLsbD_hi (a : FieldElement) {k : Nat} (hk : k < 64) : (hi a).getLsbD k = a.getLsbD (64 + k) := by
  simp [hi, hk]

theorem getLsbD_lo (a : FieldElement) {k : Nat} (hk : k < 64) : (lo a).getLsbD k = a.getLsbD k := by
  simp [lo, hk]

/-- The bit that R87 shifts out of the high limb. -/
theorem hi_ushiftRight_63 (a : FieldElement) : hi a >>> 63 = if a.getLsbD 127 then 1 else 0 := by
  apply BitVec.eq_of_getLsbD_eq
  intro k hk
  rw [BitVec.getLsbD_ushiftRight]
  rcases k with _ | k
  · rw [getLsbD_hi a (by omega)]
    cases a.getLsbD 127 <;> rfl
  · rw [BitVec.getLsbD_of_ge _ _ (by omega)]
    cases a.getLsbD 127 <;> simp [BitVec.getLsbD_one]

/-- R87's shift of the high limb, with the carry from the low one. -/
theorem hi_shiftLeft_one (a : FieldElement) : hi (a <<< 1) = hi a <<< 1 ||| lo a >>> 63 := by
  apply BitVec.eq_of_getLsbD_eq
  intro k hk
  rw [getLsbD_hi _ hk, BitVec.getLsbD_or, BitVec.getLsbD_ushiftRight, BitVec.getLsbD_shiftLeft, BitVec.getLsbD_shiftLeft]
  rcases k with _ | k
  · rw [getLsbD_lo a (by omega)]
    simp
  · have hindex : 64 + (k + 1) - 1 = 64 + k := by omega
    have hlo : (lo a).getLsbD (63 + (k + 1)) = false := BitVec.getLsbD_of_ge _ _ (by omega)
    have hcond : 64 + (k + 1) < 128 ∧ ¬ 64 + (k + 1) < 1 := by omega
    rw [hindex, hlo, Nat.add_sub_cancel, getLsbD_hi a (by omega)]
    simp [hk, hcond]

theorem lo_shiftLeft_one (a : FieldElement) : lo (a <<< 1) = lo a <<< 1 := by
  apply BitVec.eq_of_getLsbD_eq
  intro k hk
  have hk128 : k < 128 := by omega
  rw [getLsbD_lo _ hk, BitVec.getLsbD_shiftLeft, BitVec.getLsbD_shiftLeft, getLsbD_lo a (by omega)]
  simp only [hk, hk128]

/-- ONE_M, limb by limb: RED_CONST and 1 (41_fmul.md R83). -/
theorem oneM_eq_limbs : 0xC2000000000000000000000000000001 = limbs redConst 1 := rfl

theorem limbs_xor (h l h' l' : Limb) : limbs h l ^^^ limbs h' l' = limbs (h ^^^ h') (l ^^^ l') := BitVec.xor_append

/-- R87 on the whole value: a shift by one bit, and the bit shifted out put back as x^128 mod P. -/
theorem double_eq (a : FieldElement) :
    double a = a <<< 1 ^^^ if a.getLsbD 127 then 0xC2000000000000000000000000000001 else 0 := by
  rw [← limbs_hi_lo (a <<< 1), hi_shiftLeft_one, lo_shiftLeft_one, double, hi_ushiftRight_63]
  cases a.getLsbD 127
  · simp
  · have hhigh : (1 : Limb) <<< 63 ^^^ (1 : Limb) <<< 62 ^^^ (1 : Limb) <<< 57 = redConst := by decide
    simp only [if_true, oneM_eq_limbs, limbs_xor, ← hhigh, BitVec.xor_assoc]

/-- A multiplication by x is a shift by one bit, but for the bit shifted out. -/
theorem bitsPoly_mul_X (a : FieldElement) :
    bitsPoly a * X = bitsPoly (a <<< 1) + if a.getLsbD 127 then X ^ 128 else 0 := by
  ext k
  rw [coeff_add, apply_ite (coeff · k), coeff_X_pow, coeff_zero, coeff_bitsPoly, BitVec.getLsbD_shiftLeft]
  rcases k with _ | k
  · simp
  · rw [coeff_mul_X, coeff_bitsPoly]
    rcases Nat.lt_trichotomy k 127 with hbelow | rfl | habove
    · have hk : k + 1 < 128 := by omega
      simp [hk, hbelow.ne]
    · simp
    · have hk : ¬ k + 1 < 128 := by omega
      rw [BitVec.getLsbD_of_ge a k (by omega)]
      simp [hk, habove.ne']

/-- double(a) is a·x in GF(2)[x]/P (42_double_powers.md R88). -/
theorem residue_double (a : FieldElement) : residue (double a) = residue a * AdjoinRoot.root polyP := by
  have hmul : residue a * AdjoinRoot.root polyP = AdjoinRoot.mk polyP (bitsPoly a * X) := by
    rw [map_mul, AdjoinRoot.mk_X, residue]
  rw [hmul, bitsPoly_mul_X, map_add, double_eq, residue_xor, residue]
  split
  · rw [residue_oneM, montFactor]
  · rw [residue_zero, map_zero]

/-- Settles O40: a congruence modulo P is an equation in GF(2)[x]/P. -/
theorem doubleMultipliesByX : Obligations.DoubleMultipliesByX := fun a => by
  rw [congruentModP_iff, map_mul, AdjoinRoot.mk_X]
  exact residue_double a

/-- x is invertible modulo P, as its power x^128 is. -/
theorem isUnit_root : IsUnit (AdjoinRoot.root polyP) := by
  have hpow : IsUnit (AdjoinRoot.root polyP ^ 128) := by
    rw [← AdjoinRoot.mk_X, ← map_pow]
    exact isUnit_montFactor
  exact (isUnit_pow_iff (by omega)).1 hpow

theorem double_xor (a b : FieldElement) : double (a ^^^ b) = double a ^^^ double b := by
  apply residue_injective
  rw [residue_xor, residue_double, residue_double, residue_double, residue_xor, add_mul]

theorem double_zero : double 0 = 0 := by
  apply residue_injective
  rw [residue_double, residue_zero, zero_mul]

theorem double_injective : Function.Injective double := by
  intro a b h
  apply residue_injective
  apply isUnit_root.mul_right_cancel
  rw [← residue_double, ← residue_double, h]

theorem residue_iterate_double (a : FieldElement) (k : Nat) :
    residue (double^[k] a) = residue a * AdjoinRoot.root polyP ^ k := by
  induction k with
  | zero => rw [Function.iterate_zero_apply, pow_zero, mul_one]
  | succ k ih => rw [Function.iterate_succ_apply', residue_double, ih, mul_assoc, pow_succ]

theorem residue_one_shiftLeft {k : Nat} (hk : k < 128) : residue ((1 : FieldElement) <<< k) = AdjoinRoot.root polyP ^ k := by
  have htwoPow : (1 : FieldElement) <<< k = BitVec.twoPow 128 k := rfl
  rw [residue, htwoPow, bitsPoly_twoPow hk, map_pow, AdjoinRoot.mk_X]

/-- The walk of the doublings of 1 up to x^127 (42_double_powers.md R89). -/
theorem iterate_double_one {k : Nat} (hk : k < 128) : double^[k] 1 = (1 : FieldElement) <<< k := by
  apply residue_injective
  rw [residue_iterate_double, residue_one, one_mul, residue_one_shiftLeft hk]

/-- The walk's next step is x^128 mod P (42_double_powers.md R89). -/
theorem iterate_double_one_128 : double^[128] 1 = 0xC2000000000000000000000000000001 := by
  apply residue_injective
  rw [residue_iterate_double, residue_one, one_mul, residue_oneM, montFactor, map_pow, AdjoinRoot.mk_X]

/-- Settles O41, law by law; an injective function on the finitely many field elements is a bijection. -/
theorem doubleLaws : Obligations.DoubleLaws :=
  ⟨double_xor, double_zero, Finite.injective_iff_bijective.1 double_injective,
    fun _ => double_injective.eq_iff' double_zero, fun _ _ hk => iterate_double_one (Nat.lt_succ_of_le hk),
    iterate_double_one_128⟩

theorem double_eq_shiftLeft {a : FieldElement} (h : a.getLsbD 127 = false) : double a = a <<< 1 := by
  rw [double_eq, h, if_neg Bool.false_ne_true]
  exact BitVec.xor_zero

/-- The corner cases of a single bit and of all ones, and the example of R91. -/
theorem double_examples :
    double 0x80000000000000000000000000000000 = 0xC2000000000000000000000000000001 ∧
    double 0xFFFFFFFFFFFFFFFFFFFFFFFFFFFFFFFF = 0x3DFFFFFFFFFFFFFFFFFFFFFFFFFFFFFF ∧
    double 0xD852A62BA9758182ED7D38F94DC0989C = 0x72A54C5752EB0305DAFA71F29B813139 := by
  decide

/-- Settles O39: the command ends well with the doubled operand as its result. -/
theorem doubleCommand : Obligations.DoubleCommand := by
  obtain ⟨htop, hones, hexample⟩ := double_examples
  refine ⟨fun s => State.complete_setRes (double s.opA) 0x12 s, double_zero, htop, hones, fun a h63 h127 => ?_, hexample⟩
  have hshift := double_eq_shiftLeft h127
  have hcarry : (a <<< 1).getLsbD 64 = a.getLsbD 63 := by simp
  exact ⟨hshift ▸ hcarry.trans h63, hshift⟩

end Sys2Proof.Machine
end

section
/-! The power table (42_double_powers.md R92) and the Montgomery powers it holds (R93). -/

namespace Sys2Proof.Machine

/-- R92's recurrence, whatever the multiplier. -/
theorem powersWith_get_castSucc (mul : FieldElement → FieldElement → FieldElement) (h : FieldElement) (i : Fin 7) :
    (powersWith mul h).get i.castSucc = mul ((powersWith mul h).get i.succ) h := by
  fin_cases i <;> rfl

theorem powers_get_seven (h : FieldElement) : (powers h).get 7 = h := rfl

theorem powers_get_castSucc (h : FieldElement) (i : Fin 7) :
    (powers h).get i.castSucc = fmul ((powers h).get i.succ) h := powersWith_get_castSucc fmul h i

/-- Settles O42: entry 7 is H, and the recurrence holds of any multiplier. -/
theorem powerTableRecurrence : Obligations.PowerTableRecurrence := fun h =>
  ⟨powers_get_seven h, powers_get_castSucc h⟩

/-- POW[i] is H^(8−i)·x^(−128·(7−i)) modulo P, from POW[7] down (42_double_powers.md R93). -/
theorem residue_powers_get_mul (h : FieldElement) (i : Fin 8) :
    residue ((powers h).get i) * montFactor ^ (7 - i.val) = residue h ^ (8 - i.val) := by
  induction i using Fin.reverseInduction with
  | last => simp [powers_get_seven]
  | cast i ih =>
    have hfactor : 7 - i.castSucc.val = 7 - i.succ.val + 1 := by
      rw [Fin.val_castSucc, Fin.val_succ]
      omega
    have hpower : 8 - i.castSucc.val = 8 - i.succ.val + 1 := by
      rw [Fin.val_castSucc, Fin.val_succ]
      omega
    rw [hfactor, hpower, pow_succ _ (8 - i.succ.val), ← ih, powers_get_castSucc]
    linear_combination montFactor ^ (7 - i.succ.val) * residue_fmul_mul ((powers h).get i.succ) h

/-- Settles O43: the powers of the Montgomery factor are those of x^128. -/
theorem powerTableHoldsMontgomeryPowers : Obligations.PowerTableHoldsMontgomeryPowers := fun h i => by
  rw [congruentModP_iff, map_mul, pow_mul, map_pow, map_pow]
  exact residue_powers_get_mul h i

end Sys2Proof.Machine
end

section
/-! The block engine (43_update.md R98 to R102): the tail and the strides as folds over the blocks (O44), and one stride as
one reduction of three sums (O45). -/

namespace Sys2Proof.Machine

/-- The single tail is a fold over its blocks (R99). -/
theorem tailWith_eq_foldl (mul : FieldElement → FieldElement → FieldElement) (p7 s : FieldElement)
    (bs : List FieldElement) : tailWith mul p7 s bs = bs.foldl (fun t b => mul (t ^^^ b) p7) s := by
  induction bs generalizing s with
  | nil => rfl
  | cons b bs ih => exact ih (mul (s ^^^ b) p7)

/-- The strides are a fold over the groups of 8 blocks (R100). -/
theorem stridesWith_flatten (f : FieldElement → List FieldElement → FieldElement) (s : FieldElement)
    {chunks : List (List FieldElement)} (h : ∀ c ∈ chunks, c.length = 8) :
    stridesWith f chunks.length s chunks.flatten = chunks.foldl f s := by
  induction chunks generalizing s with
  | nil => rfl
  | cons c cs ih =>
    rw [List.forall_mem_cons] at h
    obtain ⟨hc, hcs⟩ := h
    rw [List.length_cons, List.flatten_cons, stridesWith, List.take_left' hc, List.drop_left' hc, ih _ hcs,
      List.foldl_cons]

/-- The split of R98: with fewer than 8 tail blocks before w groups of 8, the engine is the tail and then w strides. -/
theorem engine_append (s : FieldElement) (pow : KeyPowers) {tail rest : List FieldElement} {w : Nat}
    (htail : tail.length < 8) (hrest : rest.length = 8 * w) :
    engine s pow (tail ++ rest) = stridesWith (stride pow) w (tailWith fmul pow.p7 s tail) rest := by
  have hlen : (tail ++ rest).length = tail.length + 8 * w := by rw [List.length_append, hrest]
  have hmod : (tail ++ rest).length % 8 = tail.length := by omega
  have hdiv : (tail ++ rest).length / 8 = w := by omega
  simp only [engine, engineWith, hmod, hdiv, List.take_left, List.drop_left]

/-- Fewer than 8 blocks are a tail (R99, R105). -/
theorem engine_of_length_lt (s : FieldElement) (pow : KeyPowers) {bs : List FieldElement} (h : bs.length < 8) :
    engine s pow bs = bs.foldl (fun t b => fmul (t ^^^ b) pow.p7) s := by
  rw [← tailWith_eq_foldl, ← List.append_nil bs, engine_append s pow h (rest := []) (w := 0) rfl, stridesWith,
    List.append_nil]

theorem engine_nil (s : FieldElement) (pow : KeyPowers) : engine s pow [] = s := rfl

/-- Settles O44: the split of R98, with the tail and the strides as folds. -/
theorem engineTailThenStrides : Obligations.EngineTailThenStrides := by
  intro s pow tail chunks htail hchunks
  have hlen : chunks.flatten.length = 8 * chunks.length := by
    rw [List.length_flatten, List.map_eq_replicate_iff.2 hchunks, List.sum_replicate, smul_eq_mul, mul_comm]
  refine ⟨?_, engine_nil s pow⟩
  rw [engine_append s pow htail hlen, tailWith_eq_foldl, stridesWith_flatten _ _ hchunks]

/-- The accumulation over blocks given by their index (R100). -/
theorem accumulate_ofFn (mul : Limb → Limb → FieldElement) {n : Nat} (t : Triple) (p y : Fin n → FieldElement) :
    accumulate mul t (List.ofFn p) (List.ofFn y) =
      (List.finRange n).foldl (fun t i => tripleXor t (karaTriple mul (p i) (y i))) t := by
  induction n generalizing t with
  | zero => rfl
  | succ n ih => rw [List.ofFn_succ, List.ofFn_succ, accumulate, ih, List.finRange_succ, List.foldl_cons, List.foldl_map]

/-- A sum of triples is three sums. -/
theorem foldl_tripleXor {ι : Type} (f : ι → Triple) (is : List ι) (t : Triple) :
    is.foldl (fun t i => tripleXor t (f i)) t =
      ⟨is.foldl (fun a i => a ^^^ (f i).h) t.h, is.foldl (fun a i => a ^^^ (f i).l) t.l,
        is.foldl (fun a i => a ^^^ (f i).m) t.m⟩ := by
  induction is generalizing t with
  | nil => rfl
  | cons i is ih => exact ih (tripleXor t (f i))

theorem KeyPowers.toList_eq_ofFn (pow : KeyPowers) : pow.toList = List.ofFn pow.get := rfl

/-- S is folded into block 0 alone (R100). -/
theorem foldState_ofFn (s : FieldElement) (blk : Fin 8 → FieldElement) :
    foldState s (List.ofFn blk) = List.ofFn fun i => blk i ^^^ if i = 0 then s else 0 := by
  simp [foldState, List.ofFn_succ]

/-- Settles O45: the accumulated triple, sum by sum, and its assembly. -/
theorem strideReducesThreeSums : Obligations.StrideReducesThreeSums := by
  intro s pow blk y hAcc lAcc mAcc hy hh hl hm
  obtain rfl : y = fun i => blk i ^^^ if i = 0 then s else 0 := funext hy
  subst hh hl hm
  rw [stride, strideWith, KeyPowers.toList_eq_ofFn, foldState_ofFn, accumulate_ofFn, foldl_tripleXor]
  rfl

end Sys2Proof.Machine
end

section
/-! With a power table the engine is Horner's recurrence (43_update.md R103; O46), whatever the split (R106; O47). The
reason is R103's: one reduction of the summed products is the XOR of the reduced products, and the powers of G weight the
blocks as the recurrence does. -/

namespace Sys2Proof.Machine

theorem fmul_xor_left (a b c : FieldElement) : fmul (a ^^^ b) c = fmul a c ^^^ fmul b c := by
  rw [fmul_comm, fmul_xor_right, fmul_comm c a, fmul_comm c b]

/-- The reduction is XOR-linear (R103). -/
theorem wideReduce_tripleXor (t u : Triple) : wideReduce (tripleXor t u) = wideReduce t ^^^ wideReduce u := by
  apply residue_mul_montFactor_inj
  simp only [wideReduce, residue_xor, add_mul, residue_mred_mul, widePoly_assemble, tripleXor, bitsPoly_xor, ← map_add]
  refine congrArg (AdjoinRoot.mk polyP) ?_
  ring

theorem wideReduce_karaTriple (a b : FieldElement) : wideReduce (karaTriple clmul64 a b) = fmul a b := rfl

theorem wideReduce_zero : wideReduce ⟨0, 0, 0⟩ = 0 := by
  have h : wideReduce ⟨0, 0, 0⟩ = wideReduce ⟨0, 0, 0⟩ ^^^ wideReduce ⟨0, 0, 0⟩ := wideReduce_tripleXor ⟨0, 0, 0⟩ ⟨0, 0, 0⟩
  exact h.trans BitVec.xor_self

/-- The XOR of the products of the powers and the values beside them. -/
def xorProducts : List FieldElement → List FieldElement → FieldElement
  | p :: ps, y :: ys => fmul p y ^^^ xorProducts ps ys
  | _, _ => 0

/-- One reduction of the accumulated products is the XOR of the reduced products (R103). -/
theorem wideReduce_accumulate (t : Triple) (ps ys : List FieldElement) :
    wideReduce (accumulate clmul64 t ps ys) = wideReduce t ^^^ xorProducts ps ys := by
  induction ps generalizing t ys with
  | nil => exact BitVec.xor_zero.symm
  | cons p ps ih =>
    cases ys with
    | nil => exact BitVec.xor_zero.symm
    | cons y ys => rw [accumulate, ih, wideReduce_tripleXor, wideReduce_karaTriple, xorProducts, BitVec.xor_assoc]

/-- One stride, whatever the table. -/
theorem stride_eq_xorProducts (pow : KeyPowers) (s : FieldElement) (bs : List FieldElement) :
    stride pow s bs = xorProducts pow.toList (foldState s bs) := by
  rw [stride, strideWith, wideReduce_accumulate, wideReduce_zero]
  exact BitVec.zero_xor

/-- The power of G by which Horner's recurrence multiplies a block that n blocks follow: POW[7 − n] for n < 8. -/
def blockWeight (g : FieldElement) : Nat → FieldElement
  | 0 => g
  | n + 1 => fmul (blockWeight g n) g

/-- The weights of n blocks in their order. -/
def blockWeights (g : FieldElement) : Nat → List FieldElement
  | 0 => []
  | n + 1 => blockWeight g n :: blockWeights g n

theorem toList_powers (g : FieldElement) : (powers g).toList = blockWeights g 8 := by
  simp only [powers, powersWith, KeyPowers.toList, blockWeights, blockWeight]

/-- A Horner step moves into the next block: s gains the weight of one block more. -/
theorem xorProducts_step (g s c : FieldElement) (cs : List FieldElement) (n : Nat) :
    xorProducts (blockWeights g (n + 1)) ((c ^^^ fmul s g) :: cs) =
      xorProducts (blockWeights g (n + 2)) (s :: c :: cs) := by
  have hweight : fmul (blockWeight g n) (fmul s g) = fmul (blockWeight g (n + 1)) s := by
    rw [blockWeight, fmul_comm s g, fmul_assoc]
  rw [BitVec.xor_comm c]
  simp only [blockWeights, xorProducts, fmul_xor_right, hweight, BitVec.xor_assoc]

/-- Horner's recurrence over at least one block weights the blocks, with S folded into the first (R103). -/
theorem horner_cons_eq_xorProducts (g s b : FieldElement) (bs : List FieldElement) :
    horner g s (b :: bs) = xorProducts (blockWeights g (bs.length + 1)) ((b ^^^ s) :: bs) := by
  induction bs generalizing s b with
  | nil =>
    rw [horner, horner, fmul_comm, BitVec.xor_comm]
    exact BitVec.xor_zero.symm
  | cons c cs ih => rw [horner, ih, xorProducts_step, BitVec.xor_comm b, List.length_cons]

/-- One stride with the power table of G is 8 Horner steps (R103). -/
theorem stride_powers (g s : FieldElement) {bs : List FieldElement} (h : bs.length = 8) :
    stride (powers g) s bs = horner g s bs := by
  cases bs with
  | nil => cases h
  | cons b bs =>
    rw [stride_eq_xorProducts, toList_powers, foldState, horner_cons_eq_xorProducts, ← h, List.length_cons]

theorem horner_eq_foldl (g s : FieldElement) (bs : List FieldElement) :
    horner g s bs = bs.foldl (fun t b => fmul (t ^^^ b) g) s := by
  induction bs generalizing s with
  | nil => rfl
  | cons b bs ih => exact ih (fmul (s ^^^ b) g)

theorem horner_append (g s : FieldElement) (bs cs : List FieldElement) :
    horner g s (bs ++ cs) = horner g (horner g s bs) cs := by
  simp only [horner_eq_foldl, List.foldl_append]

theorem stridesWith_powers (g s : FieldElement) {w : Nat} {bs : List FieldElement} (h : bs.length = 8 * w) :
    stridesWith (stride (powers g)) w s bs = horner g s bs := by
  induction w generalizing s bs with
  | zero =>
    obtain rfl : bs = [] := List.eq_nil_of_length_eq_zero h
    rfl
  | succ w ih =>
    have htake : (bs.take 8).length = 8 := by rw [List.length_take]; omega
    have hdrop : (bs.drop 8).length = 8 * w := by rw [List.length_drop]; omega
    rw [stridesWith, stride_powers g s htake, ih _ hdrop, ← horner_append, List.take_append_drop]

/-- With the power table of G the engine is Horner's recurrence with G (R103). -/
theorem engine_powers (g s : FieldElement) (bs : List FieldElement) : engine s (powers g) bs = horner g s bs := by
  have htail : (bs.take (bs.length % 8)).length < 8 := by rw [List.length_take]; omega
  have hrest : (bs.drop (bs.length % 8)).length = 8 * (bs.length / 8) := by rw [List.length_drop]; omega
  calc engine s (powers g) bs
    _ = engine s (powers g) (bs.take (bs.length % 8) ++ bs.drop (bs.length % 8)) := by rw [List.take_append_drop]
    _ = horner g (tailWith fmul g s (bs.take (bs.length % 8))) (bs.drop (bs.length % 8)) := by
      rw [engine_append s _ htail hrest, stridesWith_powers _ _ hrest]
      rfl
    _ = horner g s bs := by rw [tailWith_eq_foldl, ← horner_eq_foldl, ← horner_append, List.take_append_drop]

/-- Settles O46: the tail's steps are Horner steps, and each stride is eight of them. -/
theorem engineIsHorner : Obligations.EngineIsHorner := engine_powers

/-- Chunking equivalence for the engine (R106). -/
theorem engine_powers_append (g s : FieldElement) (bs cs : List FieldElement) :
    engine s (powers g) (bs ++ cs) = engine (engine s (powers g) bs) (powers g) cs := by
  simp only [engine_powers, horner_append]

/-- Settles O47: each law is one of Horner's recurrence. -/
theorem engineChunkingEquivalence : Obligations.EngineChunkingEquivalence := by
  intro g s x bs cs
  refine ⟨(engine_powers_append g s bs cs).symm, ?_, ?_⟩
  · simp only [engine_powers, horner_eq_foldl, List.foldl_cons, List.foldl_nil]
  · rw [engine_powers, horner, horner]
    exact congrArg (fmul · g) BitVec.zero_xor

/-- A table that is no power table: POW[7] is the identity of fmul, and every other entry is 0. -/
def inconsistentPowers : KeyPowers := ⟨0, 0, 0, 0, 0, 0, 0, 0xC2000000000000000000000000000001⟩

/-- Settles O48: from S = 1, one zero block and then seven are eight single steps, each of which keeps S, while all eight
at once are a stride, which multiplies S by POW[0] = 0 (R104). -/
theorem inconsistentTableDependsOnSplit : Obligations.InconsistentTableDependsOnSplit := by
  have hstep (t : FieldElement) : fmul (t ^^^ 0) inconsistentPowers.p7 = t := by
    rw [fmul_comm]
    exact (fmul_oneM_left _).trans BitVec.xor_zero
  have hsplit : engine (engine 1 inconsistentPowers [0]) inconsistentPowers [0, 0, 0, 0, 0, 0, 0] = 1 := by
    have h1 : ([0] : List FieldElement).length < 8 := by decide
    have h7 : ([0, 0, 0, 0, 0, 0, 0] : List FieldElement).length < 8 := by decide
    simp only [engine_of_length_lt _ _ h1, engine_of_length_lt _ _ h7, List.foldl_cons, List.foldl_nil, hstep]
  have hwhole : engine 1 inconsistentPowers ([0] ++ [0, 0, 0, 0, 0, 0, 0]) = 0 := by
    have hstride := engine_append 1 inconsistentPowers (tail := []) (rest := [0, 0, 0, 0, 0, 0, 0, 0]) (w := 1)
      (by decide) (by decide)
    refine hstride.trans ((stride_eq_xorProducts ..).trans ?_)
    simp only [inconsistentPowers, KeyPowers.toList, tailWith, foldState, xorProducts, List.take_succ_cons, fmul_zero_left,
      fmul_oneM_left]
    decide
  refine ⟨1, inconsistentPowers, [0], [0, 0, 0, 0, 0, 0, 0], ?_⟩
  rw [hsplit, hwhole]
  decide

end Sys2Proof.Machine
end

section
/-! The command UPDATE (43_update.md R108; O50), and its chunking equivalence (R106; O51). -/

namespace Sys2Proof.Machine

/-- A command that errs writes EF, ERR and LASTOP, and nothing else. -/
theorem State.raiseError_of_ne_ok {code : ErrCode} (h : code ≠ .ok) (op : Byte) (s : State) :
    s.raiseError code op = .next { s with err := code, ef := true, lastOp := op } := by
  rw [State.raiseError_eq, State.endCommand, efAfter_error h]

/-- The state after an UPDATE over the first k blocks of the range (R108). -/
def State.afterUpdate (k : Nat) (s : State) : State :=
  { s with hashState := engine s.hashState s.pow (s.readBlocks s.addr k), err := .ok, lastOp := 0x03 }

theorem State.readBlocks_zero (s : State) (a : Limb) : s.readBlocks a 0 = [] := rfl

theorem State.afterUpdate_zero (s : State) : s.afterUpdate 0 = { s with err := .ok, lastOp := 0x03 } := by
  rw [State.afterUpdate, State.readBlocks_zero, engine_nil]

theorem State.complete_update (k : Nat) (s : State) :
    (s.setHash (engine s.hashState s.pow (s.readBlocks s.addr k))).complete 0x03 = .next (s.afterUpdate k) := by
  rw [State.complete_eq, State.endCommand, efAfter_ok, State.setHash, State.afterUpdate]

/-- With a key and a LEN of whole blocks that is admitted or 0, UPDATE runs the engine over the blocks; over none, it
leaves S unchanged. -/
theorem exec_update {s : State} (hkv : s.kv = true) (hmod : s.len.toNat % 16 = 0)
    (hadmits : s.len ≠ 0 → s.memAdmits s.addr s.len.toNat = true) :
    exec .update s = .next (s.afterUpdate (s.len.toNat / 16)) := by
  have hkey : ¬ s.kv = false := by simp [hkv]
  change execUpdate s = _
  rw [execUpdate, if_neg hkey, if_neg (not_not.2 hmod)]
  by_cases hlen : s.len = 0
  · have hblocks : s.len.toNat / 16 = 0 := by rw [hlen]; rfl
    rw [if_pos hlen, hblocks, State.afterUpdate_zero, State.complete_eq, State.endCommand, efAfter_ok]
  · rw [if_neg hlen, State.withRange_admitted (hadmits hlen), State.complete_update]

/-- The example of R108. -/
theorem engine_example :
    engine 0 (powers 0x7B754BBA26F8311D7642925847936225)
      [0x62A2012DBB621740B6DF838C66954F4F, 0x62F3C9D3205FE4BB06D02127DD4DA2D1] = 0x7EB7E5F56C86B7E5FA1961847BB4A3F7 := by
  have hfirst : 0 ^^^ 0x62A2012DBB621740B6DF838C66954F4F = (0x62A2012DBB621740B6DF838C66954F4F : FieldElement) := rfl
  rw [engine_powers, horner, horner, horner, hfirst, fmul_examples.2]
  decide

/-- Settles O50, check by check. -/
theorem updateCommand : Obligations.UpdateCommand := by
  intro s
  refine ⟨fun hkv => ?_, fun hkv hmod => ?_, fun hkv hlen => ?_, fun hkv hlen hmod hadmits => ?_, engine_example⟩
  · rw [exec_no_kv (.inl rfl) hkv]
    exact s.raiseError_of_ne_ok (code := .noKey) nofun 0x03
  · have hkey : ¬ s.kv = false := by simp [hkv]
    change execUpdate s = _
    rw [execUpdate, if_neg hkey, if_pos hmod]
    exact s.raiseError_of_ne_ok (code := .invalidLength) nofun 0x03
  · have hlen0 : s.len.toNat = 0 := by rw [hlen]; rfl
    rw [exec_update hkv (by rw [hlen0]) (absurd hlen), hlen0, Nat.zero_div, State.afterUpdate_zero]
  · exact exec_update hkv hmod fun _ => hadmits

/-- A read of j + k blocks is a read of j blocks and one of the k blocks after them (R97). -/
theorem State.readBlocks_add (s : State) (a : Limb) (j k : Nat) :
    s.readBlocks a (j + k) = s.readBlocks a j ++ s.readBlocks (byteAddr a (16 * j)) k := by
  unfold State.readBlocks
  rw [List.range_add, List.map_append, List.map_map]
  refine congrArg (s.readBlocks a j ++ ·) (List.map_congr_left fun i _ => ?_)
  rw [byteAddr_byteAddr, Function.comp, mul_add]

/-- Settles O51: UPDATE changes no byte of memory, so the two commands run the engine over the blocks that the one reads,
in two pieces. -/
theorem updateChunkingEquivalence : Obligations.UpdateChunkingEquivalence := by
  intro s g n1 n2 hkv hpow h1 h2 hsum hadm1 hadm2 hadm _
  have hlen : (n1 + n2).toNat = n1.toNat + n2.toNat := by rw [BitVec.toNat_add, Nat.mod_eq_of_lt hsum]
  have hmod : (n1 + n2).toNat % 16 = 0 := by omega
  have hblocks : (n1 + n2).toNat / 16 = n1.toNat / 16 + n2.toNat / 16 := by omega
  have hnext : byteAddr s.addr (16 * (n1.toNat / 16)) = s.addr + n1 := by
    rw [byteAddr, Nat.mul_div_cancel' (Nat.dvd_of_mod_eq_zero h1), BitVec.ofNat_toNat, BitVec.setWidth_eq]
  refine ⟨_, _, _, exec_update hkv h1 fun _ => hadm1, exec_update hkv h2 fun _ => hadm2,
    exec_update hkv hmod fun _ => hadm, ?_⟩
  have hread := s.readBlocks_add s.addr (n1.toNat / 16) (n2.toNat / 16)
  rw [hnext, ← hblocks] at hread
  have happend := engine_powers_append g s.hashState (s.readBlocks s.addr (n1.toNat / 16))
    (s.readBlocks (s.addr + n1) (n2.toNat / 16))
  rw [← hread, ← hpow] at happend
  exact happend.symm

end Sys2Proof.Machine
end

section
/-! The state image as elements (44_context.md R112), and the commands SAVE and LOAD over it (R113 to R116; O55 to O57). -/

namespace Sys2Proof.Machine

/-- Element j of the state image: H, S, POW[0], …, POW[7] (R112). -/
def State.contextElem (s : State) (j : Nat) : FieldElement := (s.hKey :: s.hashState :: s.pow.toList).getD j 0

theorem State.contextElem_zero (s : State) : s.contextElem 0 = s.hKey := rfl

theorem State.contextElem_one (s : State) : s.contextElem 1 = s.hashState := rfl

theorem State.contextElem_add_two (s : State) (i : Fin 8) : s.contextElem (i.val + 2) = s.pow.get i := by
  fin_cases i <;> rfl

theorem keyPowersOf_get (p : KeyPowers) : keyPowersOf p.get = p := rfl

/-- Byte k of an element's 16 bytes is its bits 8k+7 to 8k (20_memory.md R42). -/
theorem leBytes_toNat (e : FieldElement) : leBytes 16 e.toNat = (List.range 16).map fun k => e.extractLsb' (8 * k) 8 := rfl

/-- Elements laid one after the other, 16 bytes each. -/
theorem getElem?_flatMap_leBytes (es : List FieldElement) (j : Nat) {k : Nat} (hk : k < 16) :
    (es.flatMap fun e => leBytes 16 e.toNat)[16 * j + k]? = es[j]?.map fun e => e.extractLsb' (8 * k) 8 := by
  induction es generalizing j with
  | nil => simp
  | cons e es ih =>
    rw [List.flatMap_cons]
    cases j with
    | zero =>
      rw [List.getElem?_append_left (by simpa using hk), leBytes_toNat]
      simp [hk]
    | succ j =>
      have hrest : 16 * (j + 1) + k - 16 = 16 * j + k := by omega
      rw [List.getElem?_append_right (by rw [length_leBytes]; omega), length_leBytes, hrest, ih, List.getElem?_cons_succ]

/-- The image byte by byte (R112). -/
theorem getElem_contextImage (s : State) {j k : Nat} (hj : j < 10) (hk : k < 16)
    (h : 16 * j + k < (contextImage s).length) :
    (contextImage s)[16 * j + k] = (s.contextElem j).extractLsb' (8 * k) 8 := by
  have hj' : j < (s.hKey :: s.hashState :: s.pow.toList).length := hj
  have hbyte := getElem?_flatMap_leBytes (s.hKey :: s.hashState :: s.pow.toList) j hk
  rw [List.getElem?_eq_getElem hj', Option.map_some] at hbyte
  rw [State.contextElem, List.getD_eq_getElem _ _ hj']
  exact (List.getElem?_eq_some_iff.1 hbyte).2

/-- n little-endian bytes hold the low 8·n bits of a value. -/
theorem leValue_leBytes (n v : Nat) : leValue (leBytes n v) = v % 256 ^ n := by
  induction n with
  | zero => simp [leBytes, leValue, Nat.mod_one]
  | succ n ih =>
    have hsplit : leBytes (n + 1) v = leBytes n v ++ [BitVec.ofNat 8 (v >>> (8 * n))] := by
      rw [leBytes, List.range_succ, List.map_append]
      rfl
    have hweight : 2 ^ (8 * n) = 256 ^ n := pow_mul 2 8 n
    rw [hsplit, leValue_append, ih, length_leBytes, Nat.mod_pow_succ, ← hweight, ← Nat.shiftRight_eq_div_pow]
    simp [leValue]

/-- A read of 16 bytes that are an element's gives the element (20_memory.md R42). -/
theorem State.readElem_of_bytes {s : State} {a : Limb} {e : FieldElement}
    (h : ∀ k < 16, s.coreByte (byteAddr a k) = e.extractLsb' (8 * k) 8) : s.readElem a = e := by
  have hbytes : (rangeAddrs a 16).map s.coreByte = leBytes 16 e.toNat := by
    rw [rangeAddrs, List.map_map, leBytes_toNat]
    exact List.map_congr_left fun k hk => h k (List.mem_range.1 hk)
  have hfits : e.toNat % 256 ^ 16 = e.toNat := Nat.mod_eq_of_lt e.isLt
  rw [State.readElem, State.memRead, hbytes, leValue_leBytes, hfits, BitVec.ofNat_toNat, BitVec.setWidth_eq]

/-- Element i of the value of a range is the element read at offset 16·i (R114). -/
theorem State.imageElem_memRead (s : State) (a : Limb) {n i : Nat} (h : 16 * i + 16 ≤ n) :
    imageElem (s.memRead a n) i = s.readElem (byteAddr a (16 * i)) := by
  have hweight : 2 ^ (128 * i) = 256 ^ (16 * i) := by
    rw [pow_mul, pow_mul]
    norm_num
  obtain ⟨m, rfl⟩ := Nat.exists_eq_add_of_le h
  have hlow := s.memRead_lt a (16 * i)
  rw [imageElem, State.readElem, add_assoc, s.memRead_add a (16 * i), s.memRead_add _ 16, Nat.shiftRight_eq_div_pow,
    hweight, Nat.add_mul_div_left _ _ (by positivity), Nat.div_eq_of_lt hlow, Nat.zero_add]
  apply BitVec.eq_of_toNat_eq
  simp only [BitVec.toNat_ofNat]
  omega

/-- The memory after a SAVE that completes: the image at ADDR (R113). -/
def State.savedMem (s : State) : Memory := writeBytes s.mem s.addr (contextImage s)

/-- The state after a SAVE that completes. -/
def State.afterSave (s : State) : State := { s with mem := s.savedMem, err := .ok, lastOp := 0x05 }

/-- Rewritten, not `rfl`, which would run the 160 byte writes. -/
theorem State.mem_afterSave (s : State) : s.afterSave.mem = s.savedMem := by
  rw [State.afterSave]

/-- With a key and an admitted range of 160 bytes, SAVE stores the image at ADDR. -/
theorem exec_save {s : State} (hkv : s.kv = true) (hlen : s.len = 160) (hadmits : s.memAdmits s.addr 160 = true) :
    exec .save s = .next s.afterSave := by
  have hkey : ¬ s.kv = false := by simp [hkv]
  change execSave s = _
  rw [execSave, if_neg hkey, if_neg (not_not.2 hlen), State.withRange_admitted hadmits, State.complete_eq,
    State.endCommand, efAfter_ok, State.memWrite, ← State.savedMem, State.afterSave]

section savedMem

variable {s : State} (hmem : memoryWf s.mem = true)
include hmem

theorem State.memoryWf_savedMem : memoryWf s.savedMem = true := by
  rw [State.savedMem]
  exact memoryWf_writeBytes hmem s.addr (contextImage s)

/-- Within the range, SAVE's memory holds the Context. -/
theorem State.readByte_savedMem {j k : Nat} (hj : j < 10) (hk : k < 16) :
    readByte s.savedMem (byteAddr s.addr (16 * j + k)).toNat = (s.contextElem j).extractLsb' (8 * k) 8 := by
  have hlen := length_contextImage s
  rw [State.savedMem, readByte_writeBytes_byteAddr hmem s.addr (by omega) (by omega), getElem_contextImage s hj hk]

/-- Outside the range, SAVE's memory is as before. -/
theorem State.readByte_savedMem_of_not_inRange {x : Limb} (hx : inRange s.addr 160 x = false) :
    readByte s.savedMem x.toNat = readByte s.mem x.toNat := by
  have hlen := length_contextImage s
  rw [← hlen] at hx
  rw [State.savedMem, readByte_writeBytes_of_not_inRange hmem (by omega) hx]

end savedMem

/-- Settles O55, check by check; what memory holds after the write is said by the lemmas on `State.savedMem`. -/
theorem saveCommand : Obligations.SaveCommand := by
  refine fun s => ⟨fun hkv => ?_, fun hkv hlen => ?_, fun hkv hlen hadmits hmem => ?_⟩
  · rw [exec_no_kv (.inr (.inr rfl)) hkv]
    exact s.raiseError_of_ne_ok (code := .noKey) nofun 0x05
  · have hkey : ¬ s.kv = false := by simp [hkv]
    change execSave s = _
    rw [execSave, if_neg hkey, if_pos hlen]
    exact s.raiseError_of_ne_ok (code := .invalidLength) nofun 0x05
  · exact ⟨s.savedMem, exec_save hkv hlen hadmits, State.memoryWf_savedMem hmem,
      fun _ hj _ hk => State.readByte_savedMem hmem hj hk, fun _ hx => State.readByte_savedMem_of_not_inRange hmem hx⟩

/-- A command that completes with a Context writes H, POW, S, KV, ERR and LASTOP, and nothing else. -/
theorem State.complete_setContext (h : FieldElement) (p : KeyPowers) (v : FieldElement) (op : Byte) (s : State) :
    (s.setContext h p v).complete op =
      .next { s with hKey := h, pow := p, hashState := v, kv := true, err := .ok, lastOp := op } := by
  rw [State.complete_eq, State.endCommand, efAfter_ok, State.setContext]

/-- The state after a LOAD that completes (R114). -/
def State.afterLoad (s : State) : State :=
  { s with
    hKey := s.readElem s.addr
    hashState := s.readElem (byteAddr s.addr 16)
    pow := keyPowersOf fun i => s.readElem (byteAddr s.addr (32 + 16 * i.val))
    kv := true
    err := .ok
    lastOp := 0x06 }

/-- The offsets of R112's table: H at 0, S at 16, POW[i] at 32 + 16·i. -/
theorem State.complete_installImage (s : State) :
    (s.installImage (s.memRead s.addr 160)).complete 0x06 = .next s.afterLoad := by
  have hH : imageElem (s.memRead s.addr 160) 0 = s.readElem s.addr := by
    rw [s.imageElem_memRead s.addr (by omega), byteAddr_zero]
  have hS : imageElem (s.memRead s.addr 160) 1 = s.readElem (byteAddr s.addr 16) := s.imageElem_memRead s.addr (by omega)
  have hPow (i : Fin 8) : imageElem (s.memRead s.addr 160) (i.val + 2) = s.readElem (byteAddr s.addr (32 + 16 * i.val)) := by
    rw [s.imageElem_memRead s.addr (by omega), mul_add, add_comm]
  rw [State.installImage, State.complete_setContext, hH, hS, funext hPow, State.afterLoad]

/-- With an admitted range of 160 bytes, LOAD installs the Context it holds, whatever it is (R115). -/
theorem exec_load {s : State} (hlen : s.len = 160) (hadmits : s.memAdmits s.addr 160 = true) :
    exec .load s = .next s.afterLoad := by
  change execLoad s = _
  rw [execLoad, if_neg (not_not.2 hlen), State.withRange_admitted hadmits, State.complete_installImage]

/-- Settles O56. -/
theorem loadCommand : Obligations.LoadCommand := by
  refine fun s => ⟨fun hlen => ?_, exec_load⟩
  change execLoad s = _
  rw [execLoad, if_pos hlen]
  exact s.raiseError_of_ne_ok (code := .invalidLength) nofun 0x06

/-- Where the bytes of ADDR's range are the image of s, LOAD restores the Context of s. -/
theorem State.afterLoad_of_image {s r : State}
    (h : ∀ j < 10, r.readElem (byteAddr r.addr (16 * j)) = s.contextElem j) :
    r.afterLoad =
      { r with hKey := s.hKey, hashState := s.hashState, pow := s.pow, kv := true, err := .ok, lastOp := 0x06 } := by
  have hH : r.readElem r.addr = s.hKey := by
    rw [← s.contextElem_zero, ← h 0 (by omega), mul_zero, byteAddr_zero]
  have hS : r.readElem (byteAddr r.addr 16) = s.hashState := h 1 (by omega)
  have hPow (i : Fin 8) : r.readElem (byteAddr r.addr (32 + 16 * i.val)) = s.pow.get i := by
    rw [← s.contextElem_add_two, ← h (i.val + 2) (by omega), mul_add, add_comm]
  rw [State.afterLoad, hH, hS, funext hPow, keyPowersOf_get]

/-- Settles O57: the loading state holds the image byte by byte, so its element reads are the Context's elements. -/
theorem saveLoadRoundTrip : Obligations.SaveLoadRoundTrip := by
  refine fun s hkv hlen hadmits hmem => ⟨s.afterSave, exec_save hkv hlen hadmits, fun r hrlen hradmits hquiet hsame => ?_⟩
  have helem : ∀ j < 10, r.readElem (byteAddr r.addr (16 * j)) = s.contextElem j := fun j hj =>
    State.readElem_of_bytes fun k hk => by
      rw [byteAddr_byteAddr, State.coreByte_quiet hquiet, hsame _ (by omega), State.mem_afterSave,
        State.readByte_savedMem hmem hj hk]
  rw [exec_load hrlen hradmits, State.afterLoad_of_image helem]

end Sys2Proof.Machine
end

section
/-! The commands SETKEY, CLEAR and SUM (44_context.md R109 to R111; O52 to O54). -/

namespace Sys2Proof.Machine

/-- POW[0] of R109's example. -/
theorem powers_get_zero_example :
    (powers 0x7B754BBA26F8311D7642925847936225).get 0 = 0xFCC250A53C16E52BEC3B091A65E4E538 := by
  decide +kernel

/-- Settles O52, check by check. -/
theorem setkeyCommand : Obligations.SetkeyCommand := by
  refine fun s => ⟨fun hlen => ?_, fun hlen hadmits hkey => ?_, fun hlen hadmits hkey => ?_, powers_get_seven _,
    powers_get_zero_example⟩
  all_goals change execSetkey s = _
  · rw [execSetkey, if_pos hlen]
    exact s.raiseError_of_ne_ok (code := .invalidKeyLength) nofun 0x01
  · rw [execSetkey, if_neg (not_not.2 hlen), State.withRange_admitted hadmits, if_pos hkey]
    exact s.raiseError_of_ne_ok (code := .invalidKey) nofun 0x01
  · rw [execSetkey, if_neg (not_not.2 hlen), State.withRange_admitted hadmits, if_neg hkey, State.complete_setContext]

/-- Settles O53: CLEAR has no check. -/
theorem clearCommand : Obligations.ClearCommand := fun s => by
  change (s.setHash 0).complete 0x02 = _
  rw [State.complete_eq, State.endCommand, efAfter_ok, State.setHash]

/-- SUM without a key. -/
theorem exec_sum_no_key {s : State} (h : s.kv = false) :
    exec .sum s = .next { s with err := .noKey, ef := true, lastOp := 0x04 } :=
  (exec_no_kv (.inr (.inl rfl)) h).trans (s.raiseError_of_ne_ok (code := .noKey) nofun 0x04)

/-- SUM with a key. -/
theorem exec_sum_of_key {s : State} (h : s.kv = true) :
    exec .sum s = .next { s with resHi := hi s.hashState, resLo := lo s.hashState, err := .ok, lastOp := 0x04 } := by
  have hkey : ¬ s.kv = false := by simp [h]
  change execSum s = _
  rw [execSum, if_neg hkey, State.complete_setRes]

/-- RES after SUM is S with a key and unchanged without one. -/
theorem res_of_exec_sum {s t : State} (h : exec .sum s = .next t) :
    t.resHi = (if s.kv then hi s.hashState else s.resHi) ∧ t.resLo = (if s.kv then lo s.hashState else s.resLo) := by
  cases hkv : s.kv with
  | false =>
    rw [exec_sum_no_key hkv] at h
    cases h
    exact ⟨rfl, rfl⟩
  | true =>
    rw [exec_sum_of_key hkv] at h
    cases h
    exact ⟨rfl, rfl⟩

/-- Settles O54: KV and S stand as they were when the second SUM reads them. -/
theorem sumCommand : Obligations.SumCommand := by
  refine fun s => ⟨exec_sum_no_key, exec_sum_of_key, fun t u hfirst hsecond => ?_⟩
  obtain ⟨-, -, -, hkeep, hkeepS, -, -⟩ := commandFrame .sum s t hfirst
  obtain ⟨-, -, hkv⟩ := hkeep nofun nofun
  have hS := hkeepS nofun nofun nofun nofun
  obtain ⟨htHi, htLo⟩ := res_of_exec_sum hfirst
  obtain ⟨huHi, huLo⟩ := res_of_exec_sum hsecond
  rw [hkv, hS] at huHi huLo
  constructor
  · rw [huHi, htHi]
    split <;> rfl
  · rw [huLo, htLo]
    split <;> rfl

end Sys2Proof.Machine
end

section
/-! Which command ends with which error, and that such an end is precise (60_exceptions.md R119 to R126; O17, O18, O20). -/

namespace Sys2Proof.Machine

/-- The checks of the commands: when a check fails, those before it held (R119 to R122, in R127's order). -/
inductive Raises (s : State) : Instr → ErrCode → Prop
  | keyLength (hlen : s.len ≠ 16) : Raises s .setkey .invalidKeyLength
  | zeroKey (hlen : s.len = 16) (hadmits : s.memAdmits s.addr 16 = true) (hkey : s.readElem s.addr = 0) :
      Raises s .setkey .invalidKey
  | updateLength (hkv : s.kv = true) (hlen : s.len.toNat % 16 ≠ 0) : Raises s .update .invalidLength
  | loadLength (hlen : s.len ≠ 160) : Raises s .load .invalidLength
  | saveLength (hkv : s.kv = true) (hlen : s.len ≠ 160) : Raises s .save .invalidLength
  | noKey {i : Instr} (hi : i = .update ∨ i = .sum ∨ i = .save) (hkv : s.kv = false) : Raises s i .noKey

/-- Where a check fails, the command ends with its error, and STATUS alone changes (R125). -/
theorem exec_of_raises {s : State} {i : Instr} {code : ErrCode} (h : Raises s i code) :
    exec i s = .next { s with err := code, ef := true, lastOp := opcodeOf i } := by
  cases h with
  | keyLength hlen =>
    obtain ⟨hexec, -⟩ := setkeyCommand s
    exact hexec hlen
  | zeroKey hlen hadmits hkey =>
    obtain ⟨-, hexec, -⟩ := setkeyCommand s
    exact hexec hlen hadmits hkey
  | updateLength hkv hlen =>
    obtain ⟨-, hexec, -⟩ := updateCommand s
    exact hexec hkv hlen
  | loadLength hlen =>
    obtain ⟨hexec, -⟩ := loadCommand s
    exact hexec hlen
  | saveLength hkv hlen =>
    obtain ⟨-, hexec, -⟩ := saveCommand s
    exact hexec hkv hlen
  | noKey hi hkv => exact (exec_no_kv hi hkv).trans (s.raiseError_of_ne_ok (code := .noKey) nofun _)

/-- A failed check comes before any access, but for SETKEY's check of the key it has read (R125, R46). -/
theorem accessOf_of_raises {s : State} {i : Instr} {code : ErrCode} (h : Raises s i code) :
    accessOf i s = if code = .invalidKey then some ⟨.read, s.addr, 16⟩ else none := by
  cases h with
  | keyLength hlen | loadLength hlen => exact if_neg hlen
  | zeroKey hlen _ _ => exact if_pos hlen
  | updateLength _ hlen => exact if_neg fun ⟨_, hmod, _⟩ => hlen hmod
  | saveLength _ hlen => exact if_neg fun ⟨_, h160⟩ => hlen h160
  | noKey hi hkv => obtain rfl | rfl | rfl := hi <;> simp [accessOf, hkv]

/-- If the outcome is a next state, it is one of completion, or its code is that of a failed check of the command. -/
def ErrsByCheck (s : State) (i : Instr) (o : Host.Outcome State Fault Refusal) : Prop :=
  ∀ t, o = .next t → t.err = .ok ∨ Raises s i t.err

section ErrsByCheck

variable {s : State} {i : Instr}

theorem ErrsByCheck.complete {u : State} {op : Byte} : ErrsByCheck s i (u.complete op) := by
  rintro _ ⟨⟩
  exact .inl rfl

theorem ErrsByCheck.error {code : ErrCode} {op : Byte} (h : Raises s i code) : ErrsByCheck s i (s.raiseError code op) := by
  rintro _ ⟨⟩
  exact .inr h

theorem ErrsByCheck.ite {c : Prop} [Decidable c] {o p : Host.Outcome State Fault Refusal} (ho : c → ErrsByCheck s i o)
    (hp : ¬ c → ErrsByCheck s i p) : ErrsByCheck s i (if c then o else p) := by
  split
  · exact ho ‹_›
  · exact hp ‹_›

theorem ErrsByCheck.withRange {n : Nat} {o : Host.Outcome State Fault Refusal}
    (ho : s.memAdmits s.addr n = true → ErrsByCheck s i o) : ErrsByCheck s i (s.withRange n o) := by
  intro t h
  obtain ⟨hadmits, h⟩ := State.withRange_next h
  exact ho hadmits t h

end ErrsByCheck

/-- Every command, check by check. -/
theorem exec_errsByCheck (i : Instr) (s : State) : ErrsByCheck s i (exec i s) := by
  have hkey (h : ¬ s.kv = false) : s.kv = true := by simpa using h
  cases i with
  | setkey =>
    exact .ite (fun hlen => .error (.keyLength hlen)) fun hlen => .withRange fun hadmits =>
      .ite (fun hzero => .error (.zeroKey (not_not.1 hlen) hadmits hzero)) fun _ => .complete
  | update =>
    exact .ite (fun hkv => .error (.noKey (.inl rfl) hkv)) fun hkv =>
      .ite (fun hlen => .error (.updateLength (hkey hkv) hlen)) fun _ =>
      .ite (fun _ => .complete) fun _ => .withRange fun _ => .complete
  | sum => exact .ite (fun hkv => .error (.noKey (.inr (.inl rfl)) hkv)) fun _ => .complete
  | save =>
    exact .ite (fun hkv => .error (.noKey (.inr (.inr rfl)) hkv)) fun hkv =>
      .ite (fun hlen => .error (.saveLength (hkey hkv) hlen)) fun _ => .withRange fun _ => .complete
  | load => exact .ite (fun hlen => .error (.loadLength hlen)) fun _ => .withRange fun _ => .complete
  | clear | clmul00 | clmul11 | fmul | double => exact .complete

/-- A command ends with an error exactly if the check of that error fails. -/
theorem exec_err_iff_raises {i : Instr} {s : State} (code : ErrCode) (hcode : code ≠ .ok) :
    (∃ t, exec i s = .next t ∧ t.err = code) ↔ Raises s i code := by
  constructor
  · rintro ⟨t, h, rfl⟩
    exact (exec_errsByCheck i s t h).resolve_left hcode
  · exact fun h => ⟨_, exec_of_raises h, rfl⟩

/-- An element read is zero exactly if its 16 bytes are. -/
theorem State.readElem_eq_zero_iff (s : State) (a : Limb) :
    s.readElem a = 0 ↔ ∀ k < 16, s.coreByte (byteAddr a k) = 0 := by
  have hfits : s.memRead a 16 < 2 ^ 128 := s.memRead_lt a 16
  have hvalue : s.readElem a = 0 ↔ s.memRead a 16 = 0 := by
    rw [State.readElem, ← BitVec.toNat_inj, BitVec.toNat_ofNat, Nat.mod_eq_of_lt hfits]
    rfl
  rw [hvalue, State.memRead_eq_sum, Finset.sum_eq_zero_iff]
  simp [← BitVec.toNat_inj]

section checks

variable {s : State} {i : Instr}

theorem raises_invalidKeyLength_iff : Raises s i .invalidKeyLength ↔ i = .setkey ∧ s.len ≠ 16 := by
  refine ⟨fun | .keyLength hlen => ⟨rfl, hlen⟩, ?_⟩
  rintro ⟨rfl, hlen⟩
  exact .keyLength hlen

theorem raises_invalidKey_iff :
    Raises s i .invalidKey ↔
      i = .setkey ∧ s.len = 16 ∧ s.memAdmits s.addr 16 = true ∧ ∀ k < 16, s.coreByte (byteAddr s.addr k) = 0 := by
  rw [← s.readElem_eq_zero_iff]
  refine ⟨fun | .zeroKey hlen hadmits hkey => ⟨rfl, hlen, hadmits, hkey⟩, ?_⟩
  rintro ⟨rfl, hlen, hadmits, hkey⟩
  exact .zeroKey hlen hadmits hkey

theorem raises_invalidLength_iff :
    Raises s i .invalidLength ↔
      (i = .update ∧ s.kv = true ∧ s.len.toNat % 16 ≠ 0) ∨ (i = .load ∧ s.len ≠ 160) ∨
      (i = .save ∧ s.kv = true ∧ s.len ≠ 160) := by
  constructor
  · intro h
    cases h with
    | updateLength hkv hlen => exact .inl ⟨rfl, hkv, hlen⟩
    | loadLength hlen => exact .inr (.inl ⟨rfl, hlen⟩)
    | saveLength hkv hlen => exact .inr (.inr ⟨rfl, hkv, hlen⟩)
  · rintro (⟨rfl, hkv, hlen⟩ | ⟨rfl, hlen⟩ | ⟨rfl, hkv, hlen⟩)
    · exact .updateLength hkv hlen
    · exact .loadLength hlen
    · exact .saveLength hkv hlen

theorem raises_noKey_iff : Raises s i .noKey ↔ (i = .update ∨ i = .sum ∨ i = .save) ∧ s.kv = false :=
  ⟨fun | .noKey hi hkv => ⟨hi, hkv⟩, fun ⟨hi, hkv⟩ => .noKey hi hkv⟩

end checks

/-- Settles O17, error by error; no command has a check that raises IllegalCommand. -/
theorem errorCauses : Obligations.ErrorCauses := by
  refine fun i s => ⟨(exec_err_iff_raises .invalidKeyLength nofun).trans raises_invalidKeyLength_iff,
    (exec_err_iff_raises .invalidKey nofun).trans raises_invalidKey_iff,
    (exec_err_iff_raises .invalidLength nofun).trans raises_invalidLength_iff,
    (exec_err_iff_raises .noKey nofun).trans raises_noKey_iff, fun h => ?_⟩
  cases (exec_err_iff_raises .illegalCommand nofun).1 h

/-- Settles O18: the error is that of a failed check, and a failed check says what the command left and accessed. -/
theorem errorsArePrecise : Obligations.ErrorsArePrecise := by
  intro i s t h herr
  have hraises := (exec_errsByCheck i s t h).resolve_left herr
  exact ⟨Host.Outcome.next.inj (h.symm.trans (exec_of_raises hraises)), accessOf_of_raises hraises⟩

/-- Settles O20: these commands have no check; CLEAR completes over a new S, the others over a new RES. -/
theorem arithmeticNeverFails : Obligations.ArithmeticNeverFails := by
  rintro i s (rfl | rfl | rfl | rfl | rfl)
  all_goals exact ⟨_, rfl, rfl, efAfter_ok s.ef, rfl⟩

end Sys2Proof.Machine
end

section
/-! Reset and hazards (70_reset_and_hazards.md): what power-on reset sets and leaves alone (R139, R140; O11 to O13, O59), the
waiting core (R142; O6), and what a command's addresses and latency depend on (R148; O25). -/

namespace Sys2Proof.Machine

/-- Settles O6: a step without input is the waiting core's. -/
theorem coreWaitsWithoutInput : Obligations.CoreWaitsWithoutInput := fun s h => by
  rw [step, h]

/-- A power-on reset from the host takes effect (R139). -/
theorem step_powerOn {s : State} {c x : Bool} {rest : List HostOp} (h : s.inputs = .powerOn c x :: rest) :
    step s = .next (State.powerOn c x { s with inputs := rest }) := step_input h

/-- STATUS with KV, EF, ERR and LASTOP at their reset values shows the backend alone (10_state.md R24). -/
theorem State.statusWord_of_reset {s : State} (hkv : s.kv = false) (hef : s.ef = false) (herr : s.err = .ok)
    (hlastOp : s.lastOp = 0) : s.statusWord = (backendCode s.be).zeroExtend 64 <<< 8 := by
  rw [State.statusWord, hkv, hef, herr, hlastOp]
  cases s.be <;> decide

/-- CAP as its two bits, each in its place (10_state.md R27). -/
theorem State.capWord_eq_or (s : State) :
    s.capWord = (BitVec.ofBool s.capClmul).zeroExtend 64 ||| (BitVec.ofBool s.capXor3).zeroExtend 64 <<< 1 := by
  rw [State.capWord]
  cases s.capClmul <;> cases s.capXor3 <;> decide

/-- The power table of a Context that holds no key. -/
theorem KeyPowers.get_zeros (i : Fin 8) : (⟨0, 0, 0, 0, 0, 0, 0, 0⟩ : KeyPowers).get i = 0 := by
  decide +revert

/-- Power-on reset gives every row of R139's table its value, from whatever state. -/
theorem holdsResetValues_powerOn (c x : Bool) (s : State) : HoldsResetValues c x (s.powerOn c x) where
  cmd := rfl
  addr := rfl
  len := rfl
  operands := ⟨rfl, rfl, rfl, rfl⟩
  result := ⟨rfl, rfl⟩
  status := State.statusWord_of_reset rfl rfl rfl rfl
  cap := State.capWord_eq_or _
  hKey := rfl
  pow := KeyPowers.get_zeros
  hashState := rfl
  kv := rfl
  backend := by simp [selectBackend]

/-- The model's reset state is one that a power-on reset leaves as it is. -/
theorem State.reset_eq_powerOn : State.reset = State.reset.powerOn Config.capClmul Config.capXor3 := rfl

/-- Settles O11: both are states after a power-on reset. -/
theorem powerOnResetValues : Obligations.PowerOnResetValues := by
  refine ⟨fun s c x rest hin => ⟨_, step_powerOn hin, holdsResetValues_powerOn ..⟩, ?_⟩
  rw [State.reset_eq_powerOn]
  exact holdsResetValues_powerOn ..

/-- Settles O12: STATUS shows the code of the backend that the sampled inputs select. -/
theorem backendSelectedAtPowerOn : Obligations.BackendSelectedAtPowerOn := by
  intro s c x rest hin
  obtain ⟨-, -, -, -, hcode, -⟩ := statusLayout (State.powerOn c x { s with inputs := rest })
  refine ⟨_, step_powerOn hin, ?_, ?_, ?_⟩
  · rintro ⟨rfl, rfl⟩
    exact ⟨rfl, hcode⟩
  · rintro ⟨rfl, rfl⟩
    exact ⟨rfl, hcode⟩
  · rintro rfl
    exact ⟨rfl, hcode⟩

/-- Settles O13: power-on reset takes what lies outside the core from the state before it. -/
theorem powerOnResetFrame : Obligations.PowerOnResetFrame := fun _ _ _ _ hin =>
  ⟨_, step_powerOn hin, rfl, rfl, rfl, rfl, rfl, rfl⟩

/-- Settles O59: the reset memory is empty, no error is shown, and the Context is blank. -/
theorem invariantAtReset : Obligations.InvariantAtReset where
  memory := rfl
  backend := rfl
  sticky := fun herr => absurd rfl herr
  status := rfl
  keyless := fun _ => ⟨rfl, rfl, rfl⟩
  noKey := nofun

/-- The range a command accesses looks at ADDR, LEN and KV only (20_memory.md R46; log 16). -/
theorem accessOf_congr (i : Instr) {s t : State} (haddr : s.addr = t.addr) (hlen : s.len = t.len) (hkv : s.kv = t.kv) :
    accessOf i s = accessOf i t := by
  unfold accessOf
  rw [haddr, hlen, hkv]

/-- Settles O25: the addresses are those of the range accessed, and the latency looks at the opcode and LEN only. -/
theorem accessSequenceIsDataIndependent : Obligations.AccessSequenceIsDataIndependent := by
  intro i s t haddr hlen hkv
  constructor
  · rw [accessedAddrs, accessedAddrs, accessOf_congr i haddr hlen hkv]
  · rw [State.latency, State.latency, hlen]

end Sys2Proof.Machine
end
